-- ==== Sys2Proof/Word.lean ====
section
/-! DEFINITION. The word of the interface and the three words of one transaction (00_scope.md R9; 30_encoding.md R53). -/

namespace Sys2Proof

/-- A chip word, an operand, RESULT or STATUS: 32 bits, bit 0 the least significant (R9, R16). -/
abbrev Word := BitVec 32

/-- The 96 input bits of one command transaction (30_encoding.md R53). -/
structure Transaction where
  /-- the command word -/
  cmd : Word
  /-- operand A -/
  opa : Word
  /-- operand B -/
  opb : Word
  deriving DecidableEq, Repr

end Sys2Proof
end

