-- ==== Sys2Proof/Syntax.lean ====
section
/-! DEFINITION. The commands of HDU1, one constructor per row of spec/opcode_table.json (30_encoding.md R55). Operands are whole
words (R56). The ignored OPB of ENC and DEC (R59) is kept as an operand, so that an instruction is the whole transaction. -/

namespace Sys2Proof

inductive Instr where
  /-- HD x, y: OPA = x, OPB = y (40_hamming_distance.md R66) -/
  | hd (x y : Word)
  /-- CFG m, t: OPA = modulation code, OPB = threshold (41_chip_codec.md R71) -/
  | cfg (m t : Word)
  /-- ENC s: OPA = symbol, OPB ignored (41_chip_codec.md R73) -/
  | enc (s opb : Word)
  /-- DEC c: OPA = chip word, OPB ignored (41_chip_codec.md R74) -/
  | dec (c opb : Word)
  deriving DecidableEq, Repr

end Sys2Proof
end

