-- ==== Sys2Proof/WellFormed.lean ====
section
/-! DEFINITION. Which instructions can be encoded. Operands are whole 32-bit words that no command constrains at encoding time
(30_encoding.md R56: every threshold, and every symbol and non-member, can be encoded), so the encoding admits every term of
`Instr`; the values a command rejects are rejected by its meaning, with a fault. The one check of the surface syntax, that a
written number fits in 32 bits (R63), is `AsmForm.wellFormed` of Machine/Assembler.lean. -/

namespace Sys2Proof

def Instr.wellFormed : Instr → Bool
  | .hd _ _ => true
  | .cfg _ _ => true
  | .enc _ _ => true
  | .dec _ _ => true

end Sys2Proof
end

