-- ==== Sys2Proof/Decode.lean ====
section
/-! DEFINITION. The decoder of 30_encoding.md R62, total on every transaction and rejecting by name, and the encoder of R55. -/

namespace Sys2Proof

/-- Why a command word spells no command. Both raise ILLEGAL_COMMAND (60_exceptions.md R88). -/
inductive Illegal where
  /-- a bit of CMD[31:4] is set (30_encoding.md R58) -/
  | reservedBits
  /-- OP is 0x0 or 0x5 to 0xF (30_encoding.md R57) -/
  | reservedOpcode
  deriving DecidableEq, Repr

/-- OP, bits 3:0 of CMD (R54). -/
def opField (cmd : Word) : BitVec 4 := cmd.extractLsb' 0 4

/-- RSV, bits 31:4 of CMD (R54). -/
def reservedField (cmd : Word) : BitVec 28 := cmd.extractLsb' 4 28

/-- The decoder of R62 with the operands of R55 and R56 filled in. Whether it answers an instruction depends on CMD alone. -/
def decode (t : Transaction) : Except Illegal Instr :=
  if (reservedField t.cmd).toNat = 0 then
    match (opField t.cmd).toNat with
    | 1 => .ok (.hd t.opa t.opb)
    | 2 => .ok (.cfg t.opa t.opb)
    | 3 => .ok (.enc t.opa t.opb)
    | 4 => .ok (.dec t.opa t.opb)
    | _ => .error .reservedOpcode
  else .error .reservedBits

/-- The words of an instruction, from the opcode map of R55. -/
def encode : Instr → Transaction
  | .hd x y => ⟨0x00000001, x, y⟩
  | .cfg m t => ⟨0x00000002, m, t⟩
  | .enc s opb => ⟨0x00000003, s, opb⟩
  | .dec c opb => ⟨0x00000004, c, opb⟩

/-- The transaction whose bits are `w`, CMD in bits 31:0, OPA in bits 63:32, OPB in bits 95:64; bits from `nbits` on are 0.
The words cross the interface whole (20_memory.md R40), so there are no bytes to order. -/
def transactionOfBits (nbits w : Nat) : Transaction :=
  let bits := w % 2 ^ nbits
  ⟨BitVec.ofNat 32 bits, BitVec.ofNat 32 (bits / 2 ^ 32), BitVec.ofNat 32 (bits / 2 ^ 64)⟩

/-- The instruction the decoder reads from an instruction whose bits are `w`, numbered as spec/opcode_table.json does. -/
def decodeTableWord (nbits w : Nat) : Option Instr :=
  match decode (transactionOfBits nbits w) with
  | .ok i => some i
  | .error _ => none

end Sys2Proof
end

