-- ==== Sys2Proof/Config.lean ====
section
/-! DEFINITION. What is fixed for the machine: the two modulations (00_scope.md R3, R11) and the OPEN parameter OQPSK_CHIP
(10_state.md R30, 92_eei_decisions.md D17). -/

namespace Sys2Proof

/-- "An enumerated, closed set of supported physical-layer schemes" (00_scope.md R3). BPSK is code 0, OQPSK code 1 (R11). -/
inductive Modulation where
  | bpsk
  | oqpsk
  deriving DecidableEq, Repr

/-- The one OQPSK chip pattern the source gives, entry 0 (10_state.md R29). -/
def Config.oqpskChip0 : Word := 0x6077ae6c

/-- FREE VALUE (log 1). An arrangement, of which nothing is known, of all the words other than entry 0. It has no body. -/
opaque Config.oqpskArrangement : Equiv.Perm { w : Word // w ≠ Config.oqpskChip0 }

/-- The 15 words that an arrangement puts in the places 0 to 14. They are pairwise distinct and none is entry 0, and every
table that 10_state.md R31 allows is read from some arrangement (`oqpskTableOf_surjective` of Laws/Codebook.lean): the form
says R31 and nothing more. -/
def Config.oqpskTableOf (order : Equiv.Perm { w : Word // w ≠ Config.oqpskChip0 }) : Vector Word 15 :=
  Vector.ofFn fun k => (order ⟨BitVec.ofNat 32 k, by revert k; decide⟩).val

/-- OQPSK_CHIP[1..15], entry k at place k - 1: open in the spec, free in the model. -/
def Config.oqpskChip : Vector Word 15 := Config.oqpskTableOf Config.oqpskArrangement

end Sys2Proof
end

