-- ==== Sys2Proof/Machine/State.lean ====
section
/-! DEFINITION. Everything the spec gives the block (10_state.md R19), as plain data, with the host's inputs still to come. -/

namespace Sys2Proof.Machine

/-- What the host does to the block, one at a time (00_scope.md R14; 70_reset_and_hazards.md R108). -/
inductive HostInput where
  /-- one command transaction -/
  | transact (t : Transaction)
  /-- the reset input, taken between two transactions -/
  | reset
  deriving DecidableEq, Repr

structure State where
  /-- CFG_VALID (R23) -/
  cfgValid : Bool
  /-- CFG_MOD, 1 bit (R24) -/
  cfgMod : Modulation
  /-- CFG_THRESH (R25) -/
  cfgThresh : BitVec 6
  /-- RESULT (R32) -/
  result : Word
  /-- HIT (R33) -/
  hit : Bool
  /-- FAULT, sticky (R34) -/
  fault : Bool
  /-- CAUSE (R35) -/
  cause : BitVec 4
  /-- the open part of the codebook ROM: OQPSK_CHIP[1..15], entry k at place k - 1 (R27, R30; log 1). Nothing writes it. -/
  oqpskChip : Vector Word 15
  /-- The model's own field: the host inputs the block has not yet taken, first one first (log 2). -/
  pending : List HostInput
  deriving DecidableEq, Repr

/-- Model-level faults. There are none, so the type has no constructor: every fatal condition of the spec is the sticky FAULT
flag, which a command sets in a NEXT state (60_exceptions.md R94; log 3). Safe: nothing is claimed of a stop that never comes. -/
inductive Fault where
  deriving DecidableEq, Repr

/-- Model-level refusals. -/
inductive Refusal where
  /-- Raised by `exec` for an instruction that has no meaning yet. Every instruction of HDU1 has one, so nothing raises it. Safe. -/
  | notModelled (mnemonic : String)
  deriving DecidableEq, Repr

/-- The block right after reset (10_state.md R38; 70_reset_and_hazards.md R107), with no host input waiting. -/
def State.reset : State where
  cfgValid := false
  cfgMod := .bpsk
  cfgThresh := 0
  result := 0
  hit := false
  fault := false
  cause := 0
  oqpskChip := Config.oqpskChip
  pending := []

end Sys2Proof.Machine
end

