-- ==== Sys2Proof/Machine/Codebook.lean ====
section
/-! DEFINITION. The per-modulation parameters (00_scope.md R11) and the codebook ROM (10_state.md R27 to R30; 20_memory.md R43). -/

namespace Sys2Proof.Machine

/-- `chips_per_symbol`: the bound of the threshold, not of a distance (R11; 90_conflicts.md C2). -/
def cps : Modulation → Nat
  | .bpsk => 15
  | .oqpsk => 32

/-- `bits_per_symbol` (R11). -/
def bps : Modulation → Nat
  | .bpsk => 1
  | .oqpsk => 4

/-- NSYM, the number of codebook entries (R11). -/
def nsym : Modulation → Nat
  | .bpsk => 2
  | .oqpsk => 16

theorem nsym_pos (m : Modulation) : 0 < nsym m := by cases m <;> decide

/-- The modulation code (R11). -/
def modCode : Modulation → BitVec 1
  | .bpsk => 0
  | .oqpsk => 1

/-- One codebook entry: a symbol and its chip pattern (R27). -/
structure RomEntry where
  symbol : Word
  chip : Word
  deriving DecidableEq, Repr

/-- `symbol_table`, in its declared order (R28, R29). -/
def symbolTable : (m : Modulation) → Vector Word (nsym m)
  | .bpsk => #v[0, 1]
  | .oqpsk => #v[0x0, 0x1, 0x2, 0x3, 0x4, 0x5, 0x6, 0x7, 0x8, 0x9, 0xA, 0xB, 0xC, 0xD, 0xE, 0xF]

/-- The 16 OQPSK chip patterns: entry 0 of the source, then OQPSK_CHIP[1..15] (R29, R30). -/
def oqpskTable (rom : Vector Word 15) : Vector Word 16 := (#v[Config.oqpskChip0] ++ rom : Vector Word (1 + 15))

/-- `chip_table`, parallel to `symbolTable` (R28 to R30). -/
def chipTable (rom : Vector Word 15) : (m : Modulation) → Vector Word (nsym m)
  | .bpsk => #v[0x000009af, 0x00007650]
  | .oqpsk => oqpskTable rom

/-- `ROMRead(mod, i)`, for `i < NSYM(mod)` only (20_memory.md R43). -/
def romRead (rom : Vector Word 15) (m : Modulation) (i : Fin (nsym m)) : RomEntry :=
  ⟨(symbolTable m)[i], (chipTable rom m)[i]⟩

end Sys2Proof.Machine
end

