-- ==== Sys2Proof/Machine/Flags.lean ====
section
/-! DEFINITION. The HIT flag of a decode, the cause codes and the STATUS view. -/

namespace Sys2Proof.Machine

/-- The causes a fault can record, and NONE (60_exceptions.md R87). Codes 6 to 15 are reserved and have no name. -/
inductive Cause where
  | none
  | illegalCommand
  | badModulation
  | badThreshold
  | notConfigured
  | symbolRange
  deriving DecidableEq, Repr

/-- The number CAUSE holds (R87). -/
def causeCode : Cause → BitVec 4
  | .none => 0
  | .illegalCommand => 1
  | .badModulation => 2
  | .badThreshold => 3
  | .notConfigured => 4
  | .symbolRange => 5

/-- Acceptance of a decode: the threshold is inclusive (41_chip_codec.md R76). -/
def withinThreshold (dist : Nat) (thresh : BitVec 6) : Bool := decide (dist ≤ thresh.toNat)

/-- A one-bit flag as a word. -/
def flagWord (b : Bool) : Word := (BitVec.ofBool b).setWidth 32

/-- STATUS, the read-only view every response carries (10_state.md R36). -/
def status (s : State) : Word :=
  flagWord s.fault <<< 31 ||| s.cause.setWidth 32 <<< 16 ||| s.cfgThresh.setWidth 32 <<< 8
    ||| (modCode s.cfgMod).setWidth 32 <<< 2 ||| flagWord s.cfgValid <<< 1 ||| flagWord s.hit

end Sys2Proof.Machine
end

