-- ==== Sys2Proof/Machine/Operands.lean ====
section
/-! DEFINITION. How each command reads OPA and OPB: whole unsigned 32-bit values, checked whole (30_encoding.md R56). HD and DEC
take their operands as they are. -/

namespace Sys2Proof.Machine

/-- OPA of CFG: a modulation code, or none for a value outside the closed set (41_chip_codec.md R71; 60_exceptions.md R89). -/
def modulationOperand (m : Word) : Option Modulation :=
  if m.toNat = 0 then some .bpsk else if m.toNat = 1 then some .oqpsk else none

/-- OPB of CFG: the 6 bits to store, or none for a value above cps, which is never clamped or truncated (R71; R90). -/
def thresholdOperand (m : Modulation) (t : Word) : Option (BitVec 6) :=
  if t.toNat ≤ cps m then some (t.extractLsb' 0 6) else none

/-- OPA of ENC: an index of the configured codebook, or none out of range; never reduced modulo NSYM (R73; R92). -/
def symbolOperand (m : Modulation) (s : Word) : Option (Fin (nsym m)) :=
  if h : s.toNat < nsym m then some ⟨s.toNat, h⟩ else none

end Sys2Proof.Machine
end

