-- ==== Sys2Proof/Machine/Ops.lean ====
section
/-! DEFINITION. The shared operations: what a command may do to the state, the fault, the reset, the distance and the scan. -/

namespace Sys2Proof.Machine

/-- A command completes: it writes RESULT and HIT together (10_state.md R32, R33). -/
def writeResult (value : Word) (hit : Bool) (s : State) : State := { s with result := value, hit := hit }

/-- The three writes of a CFG that passes its checks (41_chip_codec.md R71, R72). -/
def configure (m : Modulation) (thresh : BitVec 6) (s : State) : State :=
  { s with cfgValid := true, cfgMod := m, cfgThresh := thresh }

/-- TAKING A FAULT, the block's one exception (60_exceptions.md R94): FAULT and CAUSE are written and nothing else (R95).
There is no return from it; `hostReset` alone clears it (R98). -/
def raiseFault (c : Cause) (s : State) : State := { s with fault := true, cause := causeCode c }

/-- The reset input (70_reset_and_hazards.md R107): every register to the value of 10_state.md R38, the ROM unchanged. -/
def hostReset (s : State) : State :=
  { s with cfgValid := false, cfgMod := .bpsk, cfgThresh := 0, result := 0, hit := false, fault := false, cause := 0 }

/-- The host inputs still waiting become `rest`. -/
def setPending (rest : List HostInput) (s : State) : State := { s with pending := rest }

/-- What the host reads after a transaction: (RESULT, STATUS) (00_scope.md R14, R15). Reading changes nothing (20_memory.md R44). -/
def response (s : State) : Word × Word := (s.result, status s)

/-- The number of bits of `v` that are 1 (00_scope.md R17). -/
def popcount (v : Word) : Nat := (List.range 32).countP fun k => v.getLsbD k

/-- The Hamming distance of two words (40_hamming_distance.md R66). -/
def hammingDistance (x y : Word) : Nat := popcount (x ^^^ y)

/-- The distance of chip word `c` to codebook entry `i`, over all 32 bits (41_chip_codec.md R78). -/
def entryDistance (rom : Vector Word 15) (m : Modulation) (c : Word) (i : Fin (nsym m)) : Nat :=
  hammingDistance c (romRead rom m i).chip

/-- The running `best_i` and `best_d` of a scan; they do not outlive the command (R74; 10_state.md R37). -/
structure Best (m : Modulation) where
  idx : Fin (nsym m)
  dist : Nat
  deriving DecidableEq, Repr

/-- One turn of the loop of R74: an entry replaces the best only when it is strictly nearer. -/
def keepNearer (rom : Vector Word 15) (m : Modulation) (c : Word) (best : Best m) (i : Fin (nsym m)) : Best m :=
  if entryDistance rom m c i < best.dist then ⟨i, entryDistance rom m c i⟩ else best

/-- The scan's start: entry 0. -/
def firstEntry (rom : Vector Word 15) (m : Modulation) (c : Word) : Best m :=
  ⟨⟨0, nsym_pos m⟩, entryDistance rom m c ⟨0, nsym_pos m⟩⟩

/-- The whole scan of R74: entry 0, then entries 1 to NSYM - 1 in ascending order. -/
def nearest (rom : Vector Word 15) (m : Modulation) (c : Word) : Best m :=
  (List.finRange (nsym m)).tail.foldl (keepNearer rom m c) (firstEntry rom m c)

end Sys2Proof.Machine
end

