-- ==== Sys2Proof/Machine/Codec.lean ====
section
/-! DEFINITION. The family of the chip codec (41_chip_codec.md). -/

namespace Sys2Proof.Machine

/-- CFG (R71): the modulation is checked before the threshold (60_exceptions.md R93). -/
def execCfg (m t : Word) (s : State) : Host.Outcome State Fault Refusal :=
  match modulationOperand m with
  | none => .next (raiseFault .badModulation s)
  | some modulation =>
    match thresholdOperand modulation t with
    | none => .next (raiseFault .badThreshold s)
    | some thresh => .next (writeResult 0 false (configure modulation thresh s))

/-- ENC (R73): the configuration is checked before the symbol (60_exceptions.md R93). OPB is ignored (30_encoding.md R59). -/
def execEnc (sym _opb : Word) (s : State) : Host.Outcome State Fault Refusal :=
  if s.cfgValid then
    match symbolOperand s.cfgMod sym with
    | none => .next (raiseFault .symbolRange s)
    | some i => .next (writeResult (romRead s.oqpskChip s.cfgMod i).chip false s)
  else .next (raiseFault .notConfigured s)

/-- DEC (R74). A miss is no fault (60_exceptions.md R86). OPB is ignored (30_encoding.md R59). -/
def execDec (c _opb : Word) (s : State) : Host.Outcome State Fault Refusal :=
  if s.cfgValid then
    let best := nearest s.oqpskChip s.cfgMod c
    if withinThreshold best.dist s.cfgThresh then
      .next (writeResult (romRead s.oqpskChip s.cfgMod best.idx).symbol true s)
    else .next (writeResult 0 false s)
  else .next (raiseFault .notConfigured s)

end Sys2Proof.Machine
end

