-- ==== Sys2Proof/Machine/Distance.lean ====
section
/-! DEFINITION. The family of the Hamming distance unit (40_hamming_distance.md). -/

namespace Sys2Proof.Machine

/-- HD (R66). It reads no configuration and raises nothing of its own. -/
def execHd (x y : Word) (s : State) : Host.Outcome State Fault Refusal :=
  .next (writeResult (BitVec.ofNat 32 (hammingDistance x y)) false s)

end Sys2Proof.Machine
end

