-- ==== Sys2Proof/Machine/Dispatch.lean ====
section
/-! DEFINITION. The `case op of` of 60_exceptions.md R96: one arm per command. -/

namespace Sys2Proof.Machine

def exec (i : Instr) (s : State) : Host.Outcome State Fault Refusal :=
  match i with
  | .hd x y => Sys2Proof.Machine.execHd x y s
  | .cfg m t => Sys2Proof.Machine.execCfg m t s
  | .enc sym opb => Sys2Proof.Machine.execEnc sym opb s
  | .dec c opb => Sys2Proof.Machine.execDec c opb s

end Sys2Proof.Machine
end

