-- ==== Sys2Proof/Machine/Transact.lean ====
section
/-! DEFINITION. One command transaction, and one host input. -/

namespace Sys2Proof.Machine

/-- The whole of one transaction, in the order of 60_exceptions.md R96: a faulted block ignores it (R97), an illegal command word
faults (R88), a command runs. -/
def transact (t : Transaction) (s : State) : Host.Outcome State Fault Refusal :=
  if s.fault then .next s
  else match decode t with
    | .error _ => .next (raiseFault .illegalCommand s)
    | .ok i => exec i s

/-- The block takes one host input (00_scope.md R14; 70_reset_and_hazards.md R108). -/
def takeInput : HostInput → State → Host.Outcome State Fault Refusal
  | .transact t, s => transact t s
  | .reset, s => .next (hostReset s)

/-- The block takes the first waiting input; with none waiting it holds its state (60_exceptions.md R106). -/
def takeNext (s : State) : Host.Outcome State Fault Refusal :=
  match s.pending with
  | [] => .next s
  | input :: rest => takeInput input (setPending rest s)

/-- `t` becomes the first of the waiting inputs. -/
def issueFirst (t : Transaction) (s : State) : State := setPending (.transact t :: s.pending) s

end Sys2Proof.Machine
end

