-- ==== Sys2Proof/Machine/Step.lean ====
section
/-! DEFINITION. One step of the machine, and the instruction its next step runs. -/

namespace Sys2Proof.Machine

/-- One machine step is one host input: a command transaction (00_scope.md R14) or the reset (70_reset_and_hazards.md R108). -/
def step (s : State) : Host.Outcome State Fault Refusal := takeNext s

/-- The host issues the transaction whose bits are `w` next (log 4). -/
def State.withFetchWord (s : State) (nbits w : Nat) : State := issueFirst (transactionOfBits nbits w) s

end Sys2Proof.Machine
end

