-- ==== Sys2Proof/Machine/Assembler.lean ====
section
/-! DEFINITION. The assembler, the disassembler and the listing of 30_encoding.md R63 to R65. A line is a list of characters.
What those rules leave open is in log 5 (what is read) and log 6 (what is printed). -/

namespace Sys2Proof.Machine

/-- The forms of R63. `RAW` is a directive, not a command (R64). -/
inductive AsmForm where
  | hd (x y : Nat)
  | cfgNamed (m : Modulation) (t : Nat)
  | cfg (m t : Nat)
  | enc (s : Nat)
  | dec (c : Nat)
  | raw (w a b : Nat)
  deriving DecidableEq, Repr

/-- A number "must fit in 32 bits unsigned" (R63). -/
def fitsWord (n : Nat) : Bool := decide (n < 2 ^ 32)

def AsmForm.wellFormed : AsmForm → Bool
  | .hd x y => fitsWord x && fitsWord y
  | .cfgNamed _ t => fitsWord t
  | .cfg m t => fitsWord m && fitsWord t
  | .enc s => fitsWord s
  | .dec c => fitsWord c
  | .raw w a b => fitsWord w && fitsWord a && fitsWord b

/-- The operand value a modulation's name stands for (R64; 00_scope.md R11). -/
def modulationNumber (m : Modulation) : Nat := (modCode m).toNat

/-- The three words a form stands for (the table of R63). -/
def formWords : AsmForm → Nat × Nat × Nat
  | .hd x y => (1, x, y)
  | .cfgNamed m t => (2, modulationNumber m, t)
  | .cfg m t => (2, m, t)
  | .enc s => (3, s, 0)
  | .dec c => (4, c, 0)
  | .raw w a b => (w, a, b)

/-- The transaction of a form whose numbers fit (R63). -/
def assemble (f : AsmForm) : Option Transaction :=
  if f.wellFormed then
    some ⟨BitVec.ofNat 32 (formWords f).1, BitVec.ofNat 32 (formWords f).2.1, BitVec.ofNat 32 (formWords f).2.2⟩
  else none

/-- The form of a transaction; one that no command form spells is printed `RAW` (R65; log 6). -/
def disassemble (t : Transaction) : AsmForm :=
  match decode t with
  | .ok (.hd x y) => .hd x.toNat y.toNat
  | .ok (.cfg m th) =>
    match modulationOperand m with
    | some modulation => .cfgNamed modulation th.toNat
    | none => .cfg m.toNat th.toNat
  | .ok (.enc s opb) => if opb = 0 then .enc s.toNat else .raw t.cmd.toNat t.opa.toNat t.opb.toNat
  | .ok (.dec c opb) => if opb = 0 then .dec c.toNat else .raw t.cmd.toNat t.opa.toNat t.opb.toNat
  | .error _ => .raw t.cmd.toNat t.opa.toNat t.opb.toNat

/-- The value of a digit, either case (log 5). -/
def digitValue (c : Char) : Option Nat :=
  if '0' ≤ c ∧ c ≤ '9' then some (c.toNat - '0'.toNat)
  else if 'a' ≤ c ∧ c ≤ 'f' then some (c.toNat - 'a'.toNat + 10)
  else if 'A' ≤ c ∧ c ≤ 'F' then some (c.toNat - 'A'.toNat + 10)
  else none

/-- Digits of a base, most significant first. -/
def readDigits (base acc : Nat) : List Char → Option Nat
  | [] => some acc
  | c :: rest =>
    match digitValue c with
    | none => none
    | some d => if d < base then readDigits base (acc * base + d) rest else none

/-- "A number is decimal, 0x hex or 0b binary" (R63); at least one digit. -/
def readNumber : List Char → Option Nat
  | [] => none
  | ['0', 'x'] => none
  | ['0', 'b'] => none
  | '0' :: 'x' :: digits => readDigits 16 0 digits
  | '0' :: 'b' :: digits => readDigits 2 0 digits
  | digits => readDigits 10 0 digits

def isBlank (c : Char) : Bool := c = ' ' || c = '\t'

def trimBlanks (cs : List Char) : List Char := ((cs.dropWhile isBlank).reverse.dropWhile isBlank).reverse

/-- The text before a comment (R63). -/
def beforeComment (line : List Char) : List Char := line.takeWhile fun c => c ≠ ';'

/-- The pieces between commas (R63), blanks around them dropped. -/
def splitOperands : List Char → List (List Char)
  | [] => [[]]
  | ',' :: rest => [] :: splitOperands rest
  | c :: rest =>
    match splitOperands rest with
    | [] => [[c]]
    | piece :: pieces => (c :: piece) :: pieces

/-- A mnemonic and its operands as a form; mnemonics are case-insensitive (R63). DESIGN CHOICE (log 5), safe: the directive name
RAW, which R64 calls no command, is read in either case like the mnemonics it stands beside; R63 says so of mnemonics only. -/
def readForm (mnemonic : List Char) (operands : List (List Char)) : Option AsmForm :=
  match mnemonic.map Char.toUpper, operands with
  | ['H', 'D'], [x, y] => do some (.hd (← readNumber x) (← readNumber y))
  | ['C', 'F', 'G'], [['B', 'P', 'S', 'K'], t] => do some (.cfgNamed .bpsk (← readNumber t))
  | ['C', 'F', 'G'], [['O', 'Q', 'P', 'S', 'K'], t] => do some (.cfgNamed .oqpsk (← readNumber t))
  | ['C', 'F', 'G'], [m, t] => do some (.cfg (← readNumber m) (← readNumber t))
  | ['E', 'N', 'C'], [s] => do some (.enc (← readNumber s))
  | ['D', 'E', 'C'], [c] => do some (.dec (← readNumber c))
  | ['R', 'A', 'W'], [w, a, b] => do some (.raw (← readNumber w) (← readNumber a) (← readNumber b))
  | _, _ => none

/-- One source line: no form (blank or comment only), one form, or an error (R63: one command on each line). -/
def readLine (line : List Char) : Option (List AsmForm) :=
  let text := trimBlanks (beforeComment line)
  if text = [] then some []
  else
    let mnemonic := text.takeWhile fun c => !isBlank c
    let operands := (splitOperands (text.dropWhile fun c => !isBlank c)).map trimBlanks
    (readForm mnemonic operands).map fun f => [f]

/-- The transactions of a source text, line by line; none if a line is not a form of R63 or holds a number too wide. -/
def assembleText : List (List Char) → Option (List Transaction)
  | [] => some []
  | line :: rest => do
    let forms ← readLine line
    let transactions ← forms.mapM assemble
    let more ← assembleText rest
    some (transactions ++ more)

/-- A hex digit in lower case. -/
def hexDigit (n : Nat) : Char := if n < 10 then Char.ofNat ('0'.toNat + n) else Char.ofNat ('a'.toNat + (n - 10))

/-- The low `digits` hex digits of a number, most significant first. -/
def hexDigits : Nat → Nat → List Char
  | 0, _ => []
  | digits + 1, n => hexDigit (n / 16 ^ digits % 16) :: hexDigits digits n

/-- A number as the listing writes an operand (R65, log 6): `0x` and eight hex digits. -/
def printNumber (n : Nat) : List Char := '0' :: 'x' :: hexDigits 8 n

def printModulation : Modulation → List Char
  | .bpsk => ['B', 'P', 'S', 'K']
  | .oqpsk => ['O', 'Q', 'P', 'S', 'K']

/-- A form as text (R63). -/
def printForm : AsmForm → List Char
  | .hd x y => ['H', 'D', ' '] ++ printNumber x ++ [',', ' '] ++ printNumber y
  | .cfgNamed m t => ['C', 'F', 'G', ' '] ++ printModulation m ++ [',', ' '] ++ printNumber t
  | .cfg m t => ['C', 'F', 'G', ' '] ++ printNumber m ++ [',', ' '] ++ printNumber t
  | .enc s => ['E', 'N', 'C', ' '] ++ printNumber s
  | .dec c => ['D', 'E', 'C', ' '] ++ printNumber c
  | .raw w a b =>
    ['R', 'A', 'W', ' '] ++ printNumber w ++ [',', ' '] ++ printNumber a ++ [',', ' '] ++ printNumber b

/-- A listing line: the form, then the three words in hex (R65). -/
def listing (t : Transaction) : List Char :=
  printForm (disassemble t) ++ [' ', ';', ' '] ++ hexDigits 8 t.cmd.toNat ++ [' '] ++ hexDigits 8 t.opa.toNat ++ [' ']
    ++ hexDigits 8 t.opb.toNat

end Sys2Proof.Machine
end

