-- ==== Sys2Proof/Machine/Candidate.lean ====
section
/-! DEFINITION. UNVERIFIED, from general knowledge and not from the source: the candidate values of OQPSK_CHIP[1..15] that
10_state.md R30 lists, entry 11 left to the caller (90_conflicts.md C5). THE MACHINE DOES NOT USE THIS FILE (log 1): its table is
a free value. Tests and statements about the candidate name it. -/

namespace Sys2Proof.Machine

/-- The candidate table of R30 for a given entry 11. -/
def candidateChip (entry11 : Word) : Vector Word 15 :=
  #v[0x4e077ae6, 0x6ce077ae, 0x66ce077a, 0x2e6ce077, 0x7ae6ce07, 0x77ae6ce0, 0x077ae6ce, 0x1f885193, 0x31f88519, 0x131f8851,
    entry11, 0x51931f88, 0x051931f8, 0x0851931f, 0x78851931]

/-- Entry 11 as derived from the standard sequences (90_conflicts.md C5). -/
def derivedEntry11 : Word := 0x1931f885

/-- Entry 11 as recalled from a software table (90_conflicts.md C5). -/
def recalledEntry11 : Word := 0x1931f88f

end Sys2Proof.Machine
end

