-- ==== Sys2Proof/Machine/Variants.lean ====
section
/-! DEFINITION. Other circuits the spec speaks of, for statements that compare them with the model. The machine uses none. -/

namespace Sys2Proof.Machine

/-- The "hand-rolled byte-sum popcount" (40_hamming_distance.md R69): the sum of the counts of the four bytes. -/
def byteSumPopcount (v : Word) : Nat :=
  ((List.range 4).map fun b => (List.range 8).countP fun k => v.getLsbD (8 * b + k)).sum

/-- The scan that stops as soon as the best distance is 0 (41_chip_codec.md R77; 70_reset_and_hazards.md R115). -/
def scanToExact (rom : Vector Word 15) (m : Modulation) (c : Word) : List (Fin (nsym m)) → Best m → Best m
  | [], best => best
  | i :: rest, best => if best.dist = 0 then best else scanToExact rom m c rest (keepNearer rom m c best i)

/-- The early-exit decoder that R77 calls "always safe". -/
def nearestToExact (rom : Vector Word 15) (m : Modulation) (c : Word) : Best m :=
  scanToExact rom m c (List.finRange (nsym m)).tail (firstEntry rom m c)

/-- The early exit R77 forbids: the first entry within the threshold. -/
def firstWithin (rom : Vector Word 15) (m : Modulation) (c : Word) (thresh : BitVec 6) : Option (Fin (nsym m)) :=
  (List.finRange (nsym m)).find? fun i => withinThreshold (entryDistance rom m c i) thresh

/-- A word with its four bytes in the other order (20_memory.md R41). -/
def byteSwap (v : Word) : Word := v.extractLsb' 0 8 ++ v.extractLsb' 8 8 ++ v.extractLsb' 16 8 ++ v.extractLsb' 24 8

end Sys2Proof.Machine
end

