-- ==== Sys2Proof/Safety.lean ====
section
/-! DEFINITION. What a correct run is, and the invariants of the block. -/

namespace Sys2Proof.Machine

/-- A run ends correctly only when no fault is recorded (60_exceptions.md R97; 92_eei_decisions.md D8). -/
def endsCorrectly (s : State) : Prop := s.fault = false

/-- `k` steps from `s` end in a state with no fault recorded. -/
def runsClean (k : Nat) (s : State) : Prop := ∃ t, Host.Core.run Sys2Proof.core k s = .next t ∧ endsCorrectly t

/-- The chip patterns of the OQPSK codebook are pairwise distinct, entry 0 among them (10_state.md R31). -/
abbrev TableDistinct (rom : Vector Word 15) : Prop := (oqpskTable rom).toList.Nodup

/-- 10_state.md R26. -/
abbrev ThresholdBounded (s : State) : Prop := s.cfgValid = true → s.cfgThresh.toNat ≤ cps s.cfgMod

/-- CAUSE is 0 while FAULT = 0, and while FAULT = 1 it is one of the five codes, never a reserved one (R35; R87). -/
abbrev CauseMatchesFault (s : State) : Prop :=
  (s.fault = false → s.cause = 0) ∧ (s.fault = true → 1 ≤ s.cause.toNat ∧ s.cause.toNat ≤ 5)

/-- While no codec exists, the configuration is what reset left (R23 to R25). -/
abbrev UnconfiguredAsReset (s : State) : Prop := s.cfgValid = false → s.cfgMod = .bpsk ∧ s.cfgThresh = 0

/-- A hit shows a symbol of the configured codebook in RESULT (R32, R33). -/
abbrev HitShowsSymbol (s : State) : Prop := s.hit = true → s.cfgValid = true ∧ s.result.toNat < nsym s.cfgMod

/-- What every reachable state satisfies. -/
abbrev Invariant (s : State) : Prop :=
  ThresholdBounded s ∧ CauseMatchesFault s ∧ UnconfiguredAsReset s ∧ HitShowsSymbol s ∧ TableDistinct s.oqpskChip

end Sys2Proof.Machine
end

