-- ==== Sys2Proof/Certificates/Slice0/Obligations.lean ====
section
/-! DEFINITION. The statements for the provers, from the numbered rules of spec/. -/

open Sys2Proof Sys2Proof.Machine

/-- The number of bit positions below `n` at which two words of width `n` differ: the distance, counted without the model. -/
def Sys2Proof.Machine.differingBits {n : Nat} (x y : BitVec n) : Nat :=
  ((Finset.range n).filter fun k => x.getLsbD k ≠ y.getLsbD k).card

/-- Entry `i` is at the least distance from `c`, and no earlier entry is at the same distance (41_chip_codec.md R75). -/
def Sys2Proof.Machine.IsFirstNearest (rom : Vector Word 15) (m : Modulation) (c : Word) (i : Fin (nsym m)) : Prop :=
  ∀ j, differingBits c (romRead rom m i).chip ≤ differingBits c (romRead rom m j).chip
    ∧ (j < i → differingBits c (romRead rom m i).chip < differingBits c (romRead rom m j).chip)

/-- Every register at the value of 10_state.md R38. -/
def Sys2Proof.Machine.ResetValues (t : State) : Prop :=
  t.cfgValid = false ∧ t.cfgMod = .bpsk ∧ t.cfgThresh = 0 ∧ t.result = 0 ∧ t.hit = false ∧ t.fault = false ∧ t.cause = 0
    ∧ status t = 0

/-! ## Encoding (30_encoding.md) -/

/-- The decoder and the encoder of R55 and R62 are inverse to each other on all of Instr and all of the decodable words. -/
def Obligations.DecodeAndEncodeAreInverse : Prop :=
  (∀ i : Instr, i.wellFormed = true → decode (encode i) = .ok i)
    ∧ (∀ t i, decode t = .ok i → encode i = t ∧ i.wellFormed = true)

/-- R57, R58, R60: every CMD word is one of four commands or raises ILLEGAL_COMMAND and writes nothing else, and the two ways of
being illegal are told apart by name. -/
def Obligations.OtherCommandWordsRaiseIllegalCommand : Prop :=
  (∀ t, (∃ i, decode t = .ok i) ↔ (t.cmd = 1 ∨ t.cmd = 2 ∨ t.cmd = 3 ∨ t.cmd = 4))
    ∧ (∀ t, t.cmd.toNat / 16 ≠ 0 → decode t = .error .reservedBits)
    ∧ (∀ t, t.cmd.toNat < 16 → (t.cmd.toNat = 0 ∨ 5 ≤ t.cmd.toNat) → decode t = .error .reservedOpcode)
    ∧ (∀ s t rest, s.pending = .transact t :: rest → s.fault = false →
        (t.cmd.toNat / 16 ≠ 0 ∨ t.cmd.toNat % 16 = 0 ∨ 5 ≤ t.cmd.toNat % 16) →
        step s = .next { s with pending := rest, fault := true, cause := 1 })

/-- A word of each command, written out from the opcode map of R55, decodes to the command it stands for. -/
def Obligations.WrittenWordsDecode : Prop :=
  decode ⟨0b00000000000000000000000000000001, 0xa, 0x5⟩ = .ok (.hd 0xa 0x5)
    ∧ decode ⟨0b00000000000000000000000000000010, 0, 15⟩ = .ok (.cfg 0 15)
    ∧ decode ⟨0b00000000000000000000000000000011, 1, 0xdead⟩ = .ok (.enc 1 0xdead)
    ∧ decode ⟨0b00000000000000000000000000000100, 0x000009ae, 0⟩ = .ok (.dec 0x000009ae 0)

/-- R59: OPB of ENC and of DEC makes no difference to anything, and the assembler writes 0 there. -/
def Obligations.EncAndDecIgnoreOpb : Prop :=
  (∀ (s : State) (rest : List HostInput) (cmd a b b' : Word), cmd = 3 ∨ cmd = 4 →
      step { s with pending := .transact ⟨cmd, a, b⟩ :: rest } = step { s with pending := .transact ⟨cmd, a, b'⟩ :: rest })
    ∧ ∀ x : Word, assemble (.enc x.toNat) = some ⟨3, x, 0⟩ ∧ assemble (.dec x.toNat) = some ⟨4, x, 0⟩

/-! ## The step (60_exceptions.md R96, R97; 70_reset_and_hazards.md) -/

/-- R96: a transaction is ignored by a faulted block, faults when its command word is illegal, and otherwise runs its command.
-/
def Obligations.StepRunsTheDecodedCommand : Prop :=
  ∀ s t rest, s.pending = .transact t :: rest →
    (s.fault = true → step s = .next { s with pending := rest })
    ∧ (∀ e, s.fault = false → decode t = .error e →
        step s = .next { s with pending := rest, fault := true, cause := 1 })
    ∧ (∀ i, s.fault = false → decode t = .ok i → i.wellFormed = true → step s = exec i { s with pending := rest })

/-- The model's own interface (log 4): the step after withFetchWord runs the command the decoder reads from those bits. -/
def Obligations.FetchedWordRunsNext : Prop :=
  ∀ s nbits w i, s.fault = false → decodeTableWord nbits w = some i → step (s.withFetchWord nbits w) = exec i s

/-- R106 with the model's choice of log 2: with no input waiting, any number of steps hold the state. -/
def Obligations.IdleBlockHoldsItsState : Prop :=
  ∀ s k, s.pending = [] → Host.Core.run Sys2Proof.core k s = .next s

/-- R15: the step is a total function: it always answers a next state. -/
def Obligations.EveryStepAnswersANextState : Prop :=
  ∀ s, ∃ t, step s = .next t

/-- R97: a faulted block ignores any number of transactions; the response stays the unchanged RESULT and a STATUS that shows
FAULT = 1 and the recorded CAUSE, and the run does not end correctly. -/
def Obligations.FaultedBlockIgnoresTransactions : Prop :=
  ∀ (s : State) (ts : List Transaction) (rest : List HostInput), s.fault = true →
    s.pending = ts.map HostInput.transact ++ rest →
    ∃ t, Host.Core.run Sys2Proof.core ts.length s = .next t ∧ t = { s with pending := rest }
      ∧ response t = (s.result, status s) ∧ (response t).2.getLsbD 31 = true ∧ (response t).2.extractLsb' 16 4 = s.cause
      ∧ ¬ endsCorrectly t

/-- R34, R97: FAULT is sticky, so a run without a reset that ends correctly had no fault recorded at any point of it. -/
def Obligations.CleanEndMeansNoFaultOnTheWay : Prop :=
  ∀ (s : State) (k : Nat), HostInput.reset ∉ s.pending → runsClean k s → ∀ j, j ≤ k → runsClean j s

/-! ## Reset -/

/-- R38: the reset values, in the state a run starts from and after a reset at any time; the codebook ROM reads as before. -/
def Obligations.ResetLeavesTheValuesOfTheTable : Prop :=
  ResetValues State.reset
    ∧ ∀ s rest, s.pending = .reset :: rest →
      ∃ t, step s = .next t ∧ ResetValues t ∧ t.pending = rest ∧ ∀ m i, romRead t.oqpskChip m i = romRead s.oqpskChip m i

/-- R107: reset puts the state to the values of R38 and keeps the ROM, and no other step clears FAULT, CAUSE or CFG_VALID. -/
def Obligations.OnlyResetClearsFaultCauseAndCfgValid : Prop :=
  (∀ s rest, s.pending = .reset :: rest →
      ∃ t, step s = .next t ∧ ResetValues t ∧ ∀ m i, romRead t.oqpskChip m i = romRead s.oqpskChip m i)
    ∧ ∀ s t, step s = .next t →
      (s.fault = true ∧ t.fault = false) ∨ (s.cause ≠ 0 ∧ t.cause = 0) ∨ (s.cfgValid = true ∧ t.cfgValid = false) →
      ∃ rest, s.pending = .reset :: rest

/-- What 70_reset_and_hazards.md marks as derived ("HD can be used at once"): straight after a reset HD works, and ENC and DEC
raise NOT_CONFIGURED. -/
def Obligations.AfterResetHdWorksAndEncDecFault : Prop :=
  ∀ (s : State) (rest : List HostInput) (a b : Word),
    (s.pending = .reset :: .transact ⟨1, a, b⟩ :: rest →
      ∃ t, Host.Core.run Sys2Proof.core 2 s = .next t ∧ t.fault = false ∧ t.result.toNat = differingBits a b)
    ∧ (∀ cmd, cmd = 3 ∨ cmd = 4 → s.pending = .reset :: .transact ⟨cmd, a, b⟩ :: rest →
      ∃ t, Host.Core.run Sys2Proof.core 2 s = .next t ∧ t.fault = true ∧ t.cause = 4)

/-! ## HD (40_hamming_distance.md) -/

/-- R66: the result, the flags, the frame, the encoding, the corner cases and the example of HD. -/
def Obligations.HdCountsTheDifferingBits : Prop :=
  (∀ (x y : Word) (s : State), encode (.hd x y) = ⟨0x00000001, x, y⟩
    ∧ ∃ t, exec (.hd x y) s = .next t
      ∧ t = { s with result := BitVec.ofNat 32 (differingBits x y), hit := false }
      ∧ t.result.toNat = differingBits x y
      ∧ t.result.toNat ≤ 32
      ∧ (x = y → t.result = 0)
      ∧ (t.result = 32 ↔ y = ~~~x)
      ∧ (y = 0 → t.result.toNat = popcount x))
    ∧ ∀ s : State, exec (.hd 0b1010 0b0101) s = .next { s with result := 4, hit := false }

/-- R17: popcount is the number of bits that are 1, from 0 to 32. -/
def Obligations.PopcountCountsTheOnes : Prop :=
  ∀ v : Word, popcount v = ((Finset.range 32).filter fun k => v.getLsbD k = true).card ∧ popcount v ≤ 32

/-- What 40_hamming_distance.md marks as derived from R66 ("Narrower operands"): the distance of two narrower words is the
RESULT of HD on their zero-extensions. -/
def Obligations.HdOfZeroExtendedOperands : Prop :=
  ∀ (n : Nat) (x y : BitVec n) (s : State), 1 ≤ n → n ≤ 32 →
    ∃ t, exec (.hd (x.setWidth 32) (y.setWidth 32)) s = .next t ∧ t.result.toNat = differingBits x y

/-- What 40_hamming_distance.md marks as derived from R66 ("Laws of HD"): the six laws, for the distance that HD writes to
RESULT in every state. -/
def Obligations.HdLaws : Prop :=
  (∀ x y s, ∃ t, exec (.hd x y) s = .next t ∧ t.result.toNat = hammingDistance x y)
    ∧ ∀ x y z : Word,
      hammingDistance x y = hammingDistance y x
      ∧ hammingDistance x x = 0
      ∧ (hammingDistance x y = 0 ↔ x = y)
      ∧ hammingDistance x y ≤ hammingDistance x z + hammingDistance z y
      ∧ hammingDistance (x ^^^ z) (y ^^^ z) = hammingDistance x y
      ∧ hammingDistance x y + hammingDistance x (~~~y) = 32
      ∧ hammingDistance x y + 2 * popcount (x &&& y) = popcount x + popcount y

/-- R69: the byte-sum popcount conforms: it computes the function of the model. -/
def Obligations.ByteSumPopcountConforms : Prop :=
  ∀ v, byteSumPopcount v = popcount v

/-- R41: the distance does not depend on the byte order of the operands. -/
def Obligations.DistanceIgnoresByteOrder : Prop :=
  ∀ x y, hammingDistance (byteSwap x) (byteSwap y) = hammingDistance x y

/-! ## CFG (41_chip_codec.md R71, R72) -/

/-- R71: CFG writes the configuration, RESULT = 0 and HIT = 0, or raises BAD_MODULATION or BAD_THRESHOLD and writes nothing
else.
The stored threshold is the operand, untruncated. -/
def Obligations.CfgConfiguresOrFaults : Prop :=
  ∀ (m t : Word) (s : State), encode (.cfg m t) = ⟨0x00000002, m, t⟩
    ∧ (m = 0 → t.toNat ≤ 15 → ∃ th : BitVec 6, th.toNat = t.toNat ∧ exec (.cfg m t) s =
        .next { s with cfgValid := true, cfgMod := .bpsk, cfgThresh := th, result := 0, hit := false })
    ∧ (m = 1 → t.toNat ≤ 32 → ∃ th : BitVec 6, th.toNat = t.toNat ∧ exec (.cfg m t) s =
        .next { s with cfgValid := true, cfgMod := .oqpsk, cfgThresh := th, result := 0, hit := false })
    ∧ (1 < m.toNat → exec (.cfg m t) s = .next { s with fault := true, cause := 2 })
    ∧ (m = 0 → 15 < t.toNat → exec (.cfg m t) s = .next { s with fault := true, cause := 3 })
    ∧ (m = 1 → 32 < t.toNat → exec (.cfg m t) s = .next { s with fault := true, cause := 3 })

/-- R72: nothing of the earlier configuration survives a CFG that completes, so two blocks that differ only in configuration,
RESULT and HIT do the same for ever after it. -/
def Obligations.CfgForgetsTheOldConfiguration : Prop :=
  ∀ (s s' : State) (t : Transaction) (rest : List HostInput) (k : Nat), t.cmd = 2 → t.opa.toNat ≤ 1 →
    t.opb.toNat ≤ (if t.opa = 0 then 15 else 32) → s.fault = false → s'.fault = false → s.cause = s'.cause →
    s.oqpskChip = s'.oqpskChip → s.pending = .transact t :: rest → s'.pending = .transact t :: rest →
    Host.Core.run Sys2Proof.core (k + 1) s = Host.Core.run Sys2Proof.core (k + 1) s'

/-- R47, R112: a CFG takes effect for the very next command: a DEC straight after it is the DEC of the new configuration. -/
def Obligations.CfgAppliesToTheVeryNextDec : Prop :=
  ∀ (s : State) (th : Word) (c b : Word) (m : Modulation) (rest : List HostInput), s.fault = false →
    th.toNat ≤ cps m → s.pending = .transact ⟨2, BitVec.ofNat 32 (modCode m).toNat, th⟩ :: .transact ⟨4, c, b⟩ :: rest →
    ∃ i t, IsFirstNearest s.oqpskChip m c i ∧ Host.Core.run Sys2Proof.core 2 s = .next t ∧ t.fault = false
      ∧ (t.hit = true ↔ differingBits c (romRead s.oqpskChip m i).chip ≤ th.toNat)
      ∧ (t.hit = true → t.result.toNat = i) ∧ (t.hit = false → t.result = 0)

/-! ## The codebook (10_state.md R27 to R31) -/

/-- R11, R28, R29: the parameters of the two modulations and the entries the source gives. -/
def Obligations.CodebookEntriesAsQuoted : Prop :=
  (cps .bpsk = 15 ∧ cps .oqpsk = 32 ∧ bps .bpsk = 1 ∧ bps .oqpsk = 4 ∧ ∀ m, nsym m = 2 ^ bps m)
    ∧ ∀ rom : Vector Word 15,
      romRead rom .bpsk ⟨0, by decide⟩ = ⟨0, 0x000009af⟩
      ∧ romRead rom .bpsk ⟨1, by decide⟩ = ⟨1, 0x00007650⟩
      ∧ (romRead rom .bpsk ⟨0, by decide⟩).chip ^^^ (romRead rom .bpsk ⟨1, by decide⟩).chip = 0x00007fff
      ∧ (romRead rom .oqpsk ⟨0, by decide⟩).chip = 0x6077ae6c
      ∧ (∀ k : Fin 15, (romRead rom .oqpsk ⟨k + 1, by simp only [nsym]; omega⟩).chip = rom[k])
      ∧ ∀ m i, (romRead rom m i).symbol.toNat = i

/-- R27, R51: no command and no reset writes the codebook ROM: every entry reads the same along every run. -/
def Obligations.CodebookRomNeverChanges : Prop :=
  ∀ (s t : State) (k : Nat), Host.Core.run Sys2Proof.core k s = .next t →
    t.oqpskChip = s.oqpskChip ∧ ∀ m i, romRead t.oqpskChip m i = romRead s.oqpskChip m i

/-! ## ENC (41_chip_codec.md R73) -/

/-- R73: ENC writes the chip pattern of its symbol, whatever the threshold, or raises NOT_CONFIGURED or SYMBOL_RANGE and writes
nothing else. -/
def Obligations.EncLooksUpOrFaults : Prop :=
  ∀ (sym b : Word) (s : State), encode (.enc sym b) = ⟨0x00000003, sym, b⟩
    ∧ (s.cfgValid = false → exec (.enc sym b) s = .next { s with fault := true, cause := 4 })
    ∧ (s.cfgValid = true → s.cfgMod = .bpsk →
        (sym = 0 → exec (.enc sym b) s = .next { s with result := 0x000009af, hit := false })
        ∧ (sym = 1 → exec (.enc sym b) s = .next { s with result := 0x00007650, hit := false })
        ∧ (2 ≤ sym.toNat → exec (.enc sym b) s = .next { s with fault := true, cause := 5 }))
    ∧ (s.cfgValid = true → s.cfgMod = .oqpsk →
        (sym = 0 → exec (.enc sym b) s = .next { s with result := 0x6077ae6c, hit := false })
        ∧ (∀ k : Fin 15, sym.toNat = k + 1 → exec (.enc sym b) s = .next { s with result := s.oqpskChip[k], hit := false })
        ∧ (16 ≤ sym.toNat → exec (.enc sym b) s = .next { s with fault := true, cause := 5 }))

/-! ## DEC (41_chip_codec.md R74 to R81) -/

/-- R74, R75, R76: DEC finds the first entry at the least distance, over all 32 bits, and accepts it exactly when that distance
is within the inclusive threshold; unconfigured it raises NOT_CONFIGURED. Nothing but RESULT and HIT changes. -/
def Obligations.DecFindsTheFirstNearestEntry : Prop :=
  ∀ (c b : Word) (s : State), encode (.dec c b) = ⟨0x00000004, c, b⟩
    ∧ (s.cfgValid = false → exec (.dec c b) s = .next { s with fault := true, cause := 4 })
    ∧ (s.cfgValid = true → ∃ i, IsFirstNearest s.oqpskChip s.cfgMod c i
        ∧ exec (.dec c b) s = .next
          (if differingBits c (romRead s.oqpskChip s.cfgMod i).chip ≤ s.cfgThresh.toNat
           then { s with result := (romRead s.oqpskChip s.cfgMod i).symbol, hit := true }
           else { s with result := 0, hit := false }))

/-- R86: a decode miss is no fault: RESULT = 0 and HIT = 0, and the block goes on accepting commands. -/
def Obligations.DecodeMissIsNoFault : Prop :=
  ∀ (c b : Word) (s : State) (rest : List HostInput), s.fault = false → s.cfgValid = true →
    s.pending = .transact ⟨4, c, b⟩ :: rest →
    (∀ i, s.cfgThresh.toNat < differingBits c (romRead s.oqpskChip s.cfgMod i).chip) →
    ∃ t, step s = .next t ∧ t = { s with pending := rest, result := 0, hit := false } ∧ t.fault = false
      ∧ ∀ t' i rest', rest = .transact t' :: rest' → decode t' = .ok i → step t = exec i { t with pending := rest' }

/-- What 41_chip_codec.md marks as derived from R73 to R76 ("Round trip", "Boundary", "Monotonicity"): round trip, threshold
boundary and threshold monotonicity, for every configuration. -/
def Obligations.DecodeUndoesEncodeAndIsMonotone : Prop :=
  ∀ s : State, s.cfgValid = true → TableDistinct s.oqpskChip →
    (∀ sym b b' : Word, sym.toNat < nsym s.cfgMod →
      ∃ t u, exec (.enc sym b) s = .next t ∧ exec (.dec t.result b') t = .next u ∧ u.hit = true ∧ u.result = sym)
    ∧ (∀ (c b : Word) (e : Nat), (∃ j, differingBits c (romRead s.oqpskChip s.cfgMod j).chip = e) →
        (∀ j, e ≤ differingBits c (romRead s.oqpskChip s.cfgMod j).chip) →
        ∃ t, exec (.dec c b) s = .next t ∧ (t.hit = true ↔ e ≤ s.cfgThresh.toNat))
    ∧ (∀ (c b : Word) (th : BitVec 6), s.cfgThresh < th → th.toNat ≤ cps s.cfgMod →
        ∃ t u, exec (.dec c b) s = .next t ∧ exec (.dec c b) { s with cfgThresh := th } = .next u
          ∧ (t.hit = true → u.hit = true ∧ u.result = t.result))

/-- What 41_chip_codec.md marks as derived from R28 and R74 to R78 ("BPSK facts"). `lo` counts the bits 14:0 of c that differ
from entry 0, `hi` the bits of c[31:15]. -/
def Obligations.BpskDecodeNeverTies : Prop :=
  ∀ (c b : Word) (s : State) (lo hi : Nat),
    lo = ((Finset.range 15).filter fun k => (c ^^^ 0x000009af).getLsbD k = true).card →
    hi = ((Finset.range 17).filter fun k => c.getLsbD (15 + k) = true).card →
    (hammingDistance c 0x000009af = lo + hi ∧ hammingDistance c 0x00007650 = (15 - lo) + hi ∧ lo ≤ 15)
    ∧ hammingDistance c 0x000009af + hammingDistance c 0x00007650 = 15 + 2 * hi
    ∧ (hammingDistance c 0x000009af : Int) - hammingDistance c 0x00007650 = 2 * lo - 15
    ∧ hammingDistance c 0x000009af ≠ hammingDistance c 0x00007650
    ∧ (hammingDistance c 0x000009af < hammingDistance c 0x00007650 ↔ lo ≤ 7)
    ∧ (hi ≤ min lo (15 - lo) + hi ∧ min lo (15 - lo) + hi ≤ 7 + hi)
    ∧ (hi = 0 ↔ c.toNat < 0x8000)
    ∧ (s.cfgValid = true → s.cfgMod = .bpsk →
        (nearest s.oqpskChip .bpsk c).dist = min lo (15 - lo) + hi
        ∧ ((nearest s.oqpskChip .bpsk c).idx = ⟨0, by decide⟩ ↔ lo ≤ 7)
        ∧ ∃ t, exec (.dec c b) s = .next t
          ∧ (t.hit = true ↔ min lo (15 - lo) + hi ≤ s.cfgThresh.toNat)
          ∧ (t.hit = true → t.result = if lo ≤ 7 then 0 else 1)
          ∧ (s.cfgThresh.toNat ≤ 15 → 16 ≤ hi → t.hit = false)
          ∧ (c = 0xffffffff → hi = 17 ∧ min lo (15 - lo) + hi = 24)
          ∧ (7 ≤ s.cfgThresh.toNat → hi = 0 → t.hit = true))

/-- What 41_chip_codec.md marks as derived from R74 to R76 ("OQPSK facts that hold for every value of the parameter"): exact
entries decode to their symbols at every threshold, and at threshold 32
every DEC hits. -/
def Obligations.OqpskExactEntriesDecode : Prop :=
  ∀ (s : State) (b : Word), s.cfgValid = true → s.cfgMod = .oqpsk → TableDistinct s.oqpskChip →
    (exec (.dec 0x6077ae6c b) s = .next { s with result := 0, hit := true })
    ∧ (∀ k : Fin 15, exec (.dec s.oqpskChip[k] b) s = .next { s with result := BitVec.ofNat 32 (k + 1), hit := true })
    ∧ (s.cfgThresh = 32 → ∀ c, ∃ t, exec (.dec c b) s = .next t ∧ t.hit = true)

/-- Under the candidate table (10_state.md R30, general knowledge and not the source's, log 1), with either entry 11, bit 31
of a
chip word never changes which entry wins. -/
def Obligations.CandidateBit31NeverChangesTheWinner : Prop :=
  ∀ (e11 c : Word), e11 = derivedEntry11 ∨ e11 = recalledEntry11 →
    (∀ i, (romRead (candidateChip e11) .oqpsk i).chip.getLsbD 31 = false)
    ∧ (nearest (candidateChip e11) .oqpsk (c ^^^ 0x80000000)).idx = (nearest (candidateChip e11) .oqpsk c).idx

/-- R77, R115: a scan that stops on an exact match answers what the full scan answers, for every table and chip word. -/
def Obligations.ExactMatchExitIsTheFullScan : Prop :=
  ∀ (rom : Vector Word 15) (m : Modulation) (c : Word), nearestToExact rom m c = nearest rom m c

/-- R77: a circuit that accepts the first entry within the threshold does not conform, in either modulation. -/
def Obligations.FirstWithinThresholdDoesNotConform : Prop :=
  ∀ m : Modulation, ∃ (rom : Vector Word 15) (c : Word) (th : BitVec 6) (i : Fin (nsym m)), TableDistinct rom
    ∧ th.toNat ≤ cps m ∧ firstWithin rom m c th = some i ∧ i ≠ (nearest rom m c).idx

/-! ## Status, flags and frames (10_state.md) -/

/-- R36: the field layout of STATUS, in the response to every state. -/
def Obligations.StatusShowsEveryField : Prop :=
  ∀ s, (response s).1 = s.result
    ∧ (response s).2.getLsbD 0 = s.hit
    ∧ (response s).2.getLsbD 1 = s.cfgValid
    ∧ (response s).2.extractLsb' 2 1 = modCode s.cfgMod
    ∧ (response s).2.extractLsb' 3 5 = 0
    ∧ (response s).2.extractLsb' 8 6 = s.cfgThresh
    ∧ (response s).2.extractLsb' 14 2 = 0
    ∧ (response s).2.extractLsb' 16 4 = s.cause
    ∧ (response s).2.extractLsb' 20 11 = 0
    ∧ (response s).2.getLsbD 31 = s.fault

/-- R33: after a transaction that completes without fault HIT is 1 exactly when it was a DEC with an entry within the threshold;
a faulting or ignored transaction leaves HIT. -/
def Obligations.HitTellsADecodeHit : Prop :=
  ∀ s t tx rest, s.pending = .transact tx :: rest → step s = .next t →
    (t.fault = true → t.hit = s.hit)
    ∧ (t.fault = false → (t.hit = true ↔ ∃ c b, decode tx = .ok (.dec c b)
        ∧ ∃ i, differingBits c (romRead s.oqpskChip s.cfgMod i).chip ≤ s.cfgThresh.toNat))

/-- R23 to R25: only a CFG that completes writes CFG_VALID, CFG_MOD and CFG_THRESH; no command touches the ROM or the waiting
inputs. -/
def Obligations.OnlyCfgWritesTheConfiguration : Prop :=
  ∀ i s t, exec i s = .next t →
    t.oqpskChip = s.oqpskChip ∧ t.pending = s.pending
    ∧ ((t.cfgValid = s.cfgValid ∧ t.cfgMod = s.cfgMod ∧ t.cfgThresh = s.cfgThresh)
      ∨ (∃ m th, i = .cfg m th ∧ t.cfgValid = true ∧ (modCode t.cfgMod).toNat = m.toNat ∧ t.cfgThresh.toNat = th.toNat
        ∧ th.toNat ≤ cps t.cfgMod ∧ t.fault = s.fault ∧ t.cause = s.cause ∧ t.result = 0 ∧ t.hit = false))

/-- The frame of HD, ENC and DEC: whether they complete or fault, they change at most RESULT and HIT, or FAULT and CAUSE. -/
def Obligations.HdEncDecFrame : Prop :=
  ∀ i s t, (∀ m th, i ≠ .cfg m th) → exec i s = .next t →
    t = { s with result := t.result, hit := t.hit } ∨ t = { s with fault := true, cause := t.cause }

/-- What 20_memory.md marks as derived from R47, R66, R73 and R74 ("two runs of the same HD, ENC or DEC commands"): an HD, ENC
or DEC gives the same RESULT and HIT (or faults alike) after any commands but CFG that record no fault. -/
def Obligations.ResultsIgnoreInterveningCommands : Prop :=
  ∀ (s u v w : State) (ts : List Transaction) (rest : List HostInput) (i : Instr), s.fault = false →
    (∀ x ∈ ts, x.cmd ≠ 2) → (∀ m th, i ≠ .cfg m th) → s.pending = ts.map HostInput.transact ++ rest →
    Host.Core.run Sys2Proof.core ts.length s = .next u → u.fault = false →
    exec i s = .next v → exec i u = .next w →
    v.fault = w.fault ∧ v.cause = w.cause ∧ (v.fault = false → v.result = w.result ∧ v.hit = w.hit)

/-- R66: HD does not depend on the configuration: it gives the same RESULT and HIT in any two states. -/
def Obligations.HdIgnoresTheConfiguration : Prop :=
  ∀ (s s' : State) (x y : Word), ∃ t t', exec (.hd x y) s = .next t ∧ exec (.hd x y) s' = .next t'
    ∧ t.result = t'.result ∧ t.hit = t'.hit

/-! ## Faults (60_exceptions.md) -/

/-- R93 with R88 to R92: which fault a transaction records, by the order of the checks, and when it records none. -/
def Obligations.FaultPriority : Prop :=
  ∀ s tx rest, s.pending = .transact tx :: rest → ∃ t, step s = .next t ∧
    (if s.fault = true then t = { s with pending := rest }
     else if tx.cmd ≠ 1 ∧ tx.cmd ≠ 2 ∧ tx.cmd ≠ 3 ∧ tx.cmd ≠ 4 then t.fault = true ∧ t.cause = 1
     else if tx.cmd = 2 ∧ 1 < tx.opa.toNat then t.fault = true ∧ t.cause = 2
     else if tx.cmd = 2 ∧ (if tx.opa = 0 then 15 else 32) < tx.opb.toNat then t.fault = true ∧ t.cause = 3
     else if (tx.cmd = 3 ∨ tx.cmd = 4) ∧ s.cfgValid = false then t.fault = true ∧ t.cause = 4
     else if tx.cmd = 3 ∧ (if s.cfgMod = .bpsk then 2 else 16) ≤ tx.opa.toNat then t.fault = true ∧ t.cause = 5
     else t.fault = false ∧ t.cause = s.cause)

/-- R94, R95: a transaction that faults writes FAULT and CAUSE and nothing else, its response shows both in STATUS, and the
block
ignores the next transaction. -/
def Obligations.FaultsArePrecise : Prop :=
  ∀ s t tx rest, s.pending = .transact tx :: rest → s.fault = false → step s = .next t → t.fault = true →
    t = { s with pending := rest, fault := true, cause := t.cause } ∧ 1 ≤ t.cause.toNat ∧ t.cause.toNat ≤ 5
    ∧ (response t).2.getLsbD 31 = true ∧ (response t).2.extractLsb' 16 4 = t.cause
    ∧ ∀ tx' rest', rest = .transact tx' :: rest' → step t = .next { t with pending := rest' }

/-! ## Invariants -/

/-- Every step keeps the invariant: the threshold bound of R26, a CAUSE that is 0 without a fault and never a reserved code
(R35,
R87), an unconfigured block as reset left it, a hit that shows a symbol, and the distinct codebook of R31. -/
def Obligations.EveryStepKeepsTheInvariant : Prop :=
  ∀ s t, Invariant s → step s = .next t → Invariant t

/-- The state after reset satisfies the invariant, whatever the free codebook entries are (log 1). -/
def Obligations.ResetSatisfiesTheInvariant : Prop :=
  Invariant State.reset

/-- From every state that satisfies the invariant, a run of any length answers a next state that satisfies it. -/
def Obligations.EveryRunGoesOnAndKeepsTheInvariant : Prop :=
  ∀ s k, Invariant s → ∃ t, Host.Core.run Sys2Proof.core k s = .next t ∧ Invariant t

/-! ## The assembler (30_encoding.md R63 to R65) -/

/-- R63, R65: assembling what the disassembler prints gives the transaction back, and an illegal command word is printed RAW. -/
def Obligations.AssemblerUndoesDisassembler : Prop :=
  ∀ t, assemble (disassemble t) = some t
    ∧ ∀ e, decode t = .error e → disassemble t = .raw t.cmd.toNat t.opa.toNat t.opb.toNat

/-- R63, R65, with the number format of log 6: the assembler reads back the text of a listing line as the transaction it
lists. -/
def Obligations.ListingLineReadsBack : Prop :=
  ∀ t, readLine (listing t) = some [disassemble t] ∧ assembleText [listing t] = some [t]

/-- R63: the words of each form, and the refusal of a number too wide. -/
def Obligations.AssemblerFormsMeanTheirWords : Prop :=
  ∀ x y z : Word,
    assemble (.hd x.toNat y.toNat) = some ⟨1, x, y⟩
    ∧ assemble (.cfgNamed .bpsk y.toNat) = some ⟨2, 0, y⟩
    ∧ assemble (.cfgNamed .oqpsk y.toNat) = some ⟨2, 1, y⟩
    ∧ assemble (.cfg x.toNat y.toNat) = some ⟨2, x, y⟩
    ∧ assemble (.enc x.toNat) = some ⟨3, x, 0⟩
    ∧ assemble (.dec x.toNat) = some ⟨4, x, 0⟩
    ∧ assemble (.raw x.toNat y.toNat z.toNat) = some ⟨x, y, z⟩
    ∧ ∀ f, assemble f = none ↔ 2 ^ 32 ≤ (formWords f).1 ∨ 2 ^ 32 ≤ (formWords f).2.1 ∨ 2 ^ 32 ≤ (formWords f).2.2
end

