-- ==== Sys2Proof/Laws/Codebook.lean ====
section
/-! SUPPORT. The codebook: what each entry is, and that the free table is exactly what 10_state.md R31 allows. -/

namespace Sys2Proof.Machine

theorem oqpskTable_toList (rom : Vector Word 15) : (oqpskTable rom).toList = Config.oqpskChip0 :: rom.toList := by
  simp only [oqpskTable]
  exact Vector.toList_append

theorem tableDistinct_iff (rom : Vector Word 15) :
    TableDistinct rom ↔ Config.oqpskChip0 ∉ rom.toList ∧ rom.toList.Nodup := by
  simp only [TableDistinct, oqpskTable_toList, List.nodup_cons]

theorem romRead_symbol (rom : Vector Word 15) (m : Modulation) (i : Fin (nsym m)) :
    (romRead rom m i).symbol = BitVec.ofNat 32 i := by
  cases m <;> (revert i; simp only [romRead, nsym]; decide)

theorem romRead_symbol_toNat (rom : Vector Word 15) (m : Modulation) (i : Fin (nsym m)) :
    (romRead rom m i).symbol.toNat = i := by
  rw [romRead_symbol, BitVec.toNat_ofNat]
  have := i.isLt
  cases m <;> simp only [nsym] at this <;> omega

theorem romRead_bpsk_zero (rom : Vector Word 15) : romRead rom .bpsk ⟨0, by decide⟩ = ⟨0, 0x000009af⟩ := rfl

theorem romRead_bpsk_one (rom : Vector Word 15) : romRead rom .bpsk ⟨1, by decide⟩ = ⟨1, 0x00007650⟩ := rfl

theorem romRead_oqpsk_zero (rom : Vector Word 15) :
    (romRead rom .oqpsk ⟨0, by decide⟩).chip = 0x6077ae6c := by
  change (#v[Config.oqpskChip0] ++ rom : Vector Word (1 + 15))[0]'(by decide) = _
  rw [Vector.getElem_append_left (by decide)]
  rfl

theorem romRead_oqpsk_succ (rom : Vector Word 15) (k : Fin 15) (h : k.val + 1 < nsym .oqpsk) :
    (romRead rom .oqpsk ⟨k + 1, h⟩).chip = rom[k] := by
  change (#v[Config.oqpskChip0] ++ rom : Vector Word (1 + 15))[k.val + 1]'(by omega) = _
  rw [Vector.getElem_append_right (by omega) (by omega)]
  simp

theorem romRead_oqpsk_chip (rom : Vector Word 15) (i : Fin 16) :
    (romRead rom .oqpsk i).chip = (oqpskTable rom)[i] := rfl

/-- The chip patterns of a codebook are pairwise distinct: for BPSK always, for OQPSK under R31. -/
theorem chip_injective {rom : Vector Word 15} (h : TableDistinct rom) (m : Modulation) {i j : Fin (nsym m)}
    (e : (romRead rom m i).chip = (romRead rom m j).chip) : i = j := by
  cases m
  · have key : ∀ i j : Fin 2, (#v[0x000009af, 0x00007650] : Vector Word 2)[i] = #v[0x000009af, 0x00007650][j] → i = j := by
      decide
    exact key i j e
  · change (oqpskTable rom)[(i : Fin 16)] = (oqpskTable rom)[(j : Fin 16)] at e
    rw [TableDistinct, List.nodup_iff_injective_getElem] at h
    have hi : (i : ℕ) < (oqpskTable rom).toList.length := by rw [Vector.length_toList]; exact i.isLt
    have hj : (j : ℕ) < (oqpskTable rom).toList.length := by rw [Vector.length_toList]; exact j.isLt
    have := @h ⟨i, hi⟩ ⟨j, hj⟩ (by simpa using e)
    exact Fin.ext (by simpa using this)

/-- Every arrangement gives a table that R31 allows. -/
theorem oqpskTableOf_distinct (order : Equiv.Perm { w : Word // w ≠ Config.oqpskChip0 }) :
    TableDistinct (Config.oqpskTableOf order) := by
  rw [tableDistinct_iff]
  constructor
  · intro h
    simp only [Config.oqpskTableOf, Vector.toList_ofFn, List.mem_ofFn] at h
    obtain ⟨k, hk⟩ := h
    exact (order _).property hk
  · simp only [Config.oqpskTableOf, Vector.toList_ofFn]
    rw [List.nodup_ofFn]
    intro i j hij
    have h := congrArg Subtype.val (order.injective (Subtype.ext hij))
    have h' := congrArg BitVec.toNat h
    simp only [BitVec.toNat_ofNat] at h'
    omega

/-- Every table that R31 allows comes from some arrangement: the form of the free value adds no constraint. -/
theorem oqpskTableOf_surjective (rom : Vector Word 15) (h : TableDistinct rom) :
    ∃ order, Config.oqpskTableOf order = rom := by
  rw [tableDistinct_iff] at h
  obtain ⟨h0, hn⟩ := h
  let seed : Fin 15 → { w : Word // w ≠ Config.oqpskChip0 } := fun k => ⟨BitVec.ofNat 32 k, by revert k; decide⟩
  have seed_inj : Function.Injective seed := by
    intro i j hij
    have h' := congrArg (fun w => BitVec.toNat w.val) hij
    simp only [seed, BitVec.toNat_ofNat] at h'
    omega
  let goal : Fin 15 → { w : Word // w ≠ Config.oqpskChip0 } := fun k =>
    ⟨rom[k], fun e => h0 (e ▸ by simp)⟩
  have goal_inj : Function.Injective goal := by
    intro i j hij
    have e := congrArg Subtype.val hij
    rw [List.nodup_iff_injective_getElem] at hn
    have := @hn ⟨i, by simp⟩ ⟨j, by simp⟩ (by simpa [goal] using e)
    exact Fin.ext (by simpa using this)
  let e : {x // x ∈ Set.range seed} ≃ {x // x ∈ Set.range goal} :=
    (Equiv.ofInjective seed seed_inj).symm.trans (Equiv.ofInjective goal goal_inj)
  refine ⟨e.extendSubtype, ?_⟩
  refine Vector.ext fun k hk => ?_
  have hs : seed ⟨k, hk⟩ ∈ Set.range seed := ⟨_, rfl⟩
  have := e.extendSubtype_apply_of_mem (seed ⟨k, hk⟩) hs
  have hg : (e ⟨seed ⟨k, hk⟩, hs⟩ : { w : Word // w ≠ Config.oqpskChip0 }) = goal ⟨k, hk⟩ := by
    simp only [e, Equiv.trans_apply]
    have : (Equiv.ofInjective seed seed_inj).symm ⟨seed ⟨k, hk⟩, hs⟩ = ⟨k, hk⟩ :=
      Equiv.ofInjective_symm_apply seed_inj _
    rw [this]; rfl
  simp only [Config.oqpskTableOf, Vector.getElem_ofFn]
  change ((e.extendSubtype (seed ⟨k, hk⟩)).val) = _
  rw [this, hg]
  rfl

end Sys2Proof.Machine
end

