-- ==== Sys2Proof/Laws/State.lean ====
section
/-! SUPPORT. What each named operation leaves in each field of the state: one lemma per field per operation. -/

namespace Sys2Proof.Machine

@[simp] theorem writeResult_cfgValid (v : Word) (h : Bool) (s : State) : (writeResult v h s).cfgValid = s.cfgValid := rfl
@[simp] theorem writeResult_cfgMod (v : Word) (h : Bool) (s : State) : (writeResult v h s).cfgMod = s.cfgMod := rfl
@[simp] theorem writeResult_cfgThresh (v : Word) (h : Bool) (s : State) : (writeResult v h s).cfgThresh = s.cfgThresh := rfl
@[simp] theorem writeResult_result (v : Word) (h : Bool) (s : State) : (writeResult v h s).result = v := rfl
@[simp] theorem writeResult_hit (v : Word) (h : Bool) (s : State) : (writeResult v h s).hit = h := rfl
@[simp] theorem writeResult_fault (v : Word) (h : Bool) (s : State) : (writeResult v h s).fault = s.fault := rfl
@[simp] theorem writeResult_cause (v : Word) (h : Bool) (s : State) : (writeResult v h s).cause = s.cause := rfl
@[simp] theorem writeResult_oqpskChip (v : Word) (h : Bool) (s : State) : (writeResult v h s).oqpskChip = s.oqpskChip := rfl
@[simp] theorem writeResult_pending (v : Word) (h : Bool) (s : State) : (writeResult v h s).pending = s.pending := rfl

@[simp] theorem configure_cfgValid (m : Modulation) (th : BitVec 6) (s : State) : (configure m th s).cfgValid = true := rfl
@[simp] theorem configure_cfgMod (m : Modulation) (th : BitVec 6) (s : State) : (configure m th s).cfgMod = m := rfl
@[simp] theorem configure_cfgThresh (m : Modulation) (th : BitVec 6) (s : State) : (configure m th s).cfgThresh = th := rfl
@[simp] theorem configure_result (m : Modulation) (th : BitVec 6) (s : State) : (configure m th s).result = s.result := rfl
@[simp] theorem configure_hit (m : Modulation) (th : BitVec 6) (s : State) : (configure m th s).hit = s.hit := rfl
@[simp] theorem configure_fault (m : Modulation) (th : BitVec 6) (s : State) : (configure m th s).fault = s.fault := rfl
@[simp] theorem configure_cause (m : Modulation) (th : BitVec 6) (s : State) : (configure m th s).cause = s.cause := rfl
@[simp] theorem configure_oqpskChip (m : Modulation) (th : BitVec 6) (s : State) : (configure m th s).oqpskChip = s.oqpskChip := rfl
@[simp] theorem configure_pending (m : Modulation) (th : BitVec 6) (s : State) : (configure m th s).pending = s.pending := rfl

@[simp] theorem raiseFault_cfgValid (c : Cause) (s : State) : (raiseFault c s).cfgValid = s.cfgValid := rfl
@[simp] theorem raiseFault_cfgMod (c : Cause) (s : State) : (raiseFault c s).cfgMod = s.cfgMod := rfl
@[simp] theorem raiseFault_cfgThresh (c : Cause) (s : State) : (raiseFault c s).cfgThresh = s.cfgThresh := rfl
@[simp] theorem raiseFault_result (c : Cause) (s : State) : (raiseFault c s).result = s.result := rfl
@[simp] theorem raiseFault_hit (c : Cause) (s : State) : (raiseFault c s).hit = s.hit := rfl
@[simp] theorem raiseFault_fault (c : Cause) (s : State) : (raiseFault c s).fault = true := rfl
@[simp] theorem raiseFault_cause (c : Cause) (s : State) : (raiseFault c s).cause = causeCode c := rfl
@[simp] theorem raiseFault_oqpskChip (c : Cause) (s : State) : (raiseFault c s).oqpskChip = s.oqpskChip := rfl
@[simp] theorem raiseFault_pending (c : Cause) (s : State) : (raiseFault c s).pending = s.pending := rfl

@[simp] theorem hostReset_cfgValid (s : State) : (hostReset s).cfgValid = false := rfl
@[simp] theorem hostReset_cfgMod (s : State) : (hostReset s).cfgMod = .bpsk := rfl
@[simp] theorem hostReset_cfgThresh (s : State) : (hostReset s).cfgThresh = 0 := rfl
@[simp] theorem hostReset_result (s : State) : (hostReset s).result = 0 := rfl
@[simp] theorem hostReset_hit (s : State) : (hostReset s).hit = false := rfl
@[simp] theorem hostReset_fault (s : State) : (hostReset s).fault = false := rfl
@[simp] theorem hostReset_cause (s : State) : (hostReset s).cause = 0 := rfl
@[simp] theorem hostReset_oqpskChip (s : State) : (hostReset s).oqpskChip = s.oqpskChip := rfl
@[simp] theorem hostReset_pending (s : State) : (hostReset s).pending = s.pending := rfl

@[simp] theorem setPending_cfgValid (rest : List HostInput) (s : State) : (setPending rest s).cfgValid = s.cfgValid := rfl
@[simp] theorem setPending_cfgMod (rest : List HostInput) (s : State) : (setPending rest s).cfgMod = s.cfgMod := rfl
@[simp] theorem setPending_cfgThresh (rest : List HostInput) (s : State) : (setPending rest s).cfgThresh = s.cfgThresh := rfl
@[simp] theorem setPending_result (rest : List HostInput) (s : State) : (setPending rest s).result = s.result := rfl
@[simp] theorem setPending_hit (rest : List HostInput) (s : State) : (setPending rest s).hit = s.hit := rfl
@[simp] theorem setPending_fault (rest : List HostInput) (s : State) : (setPending rest s).fault = s.fault := rfl
@[simp] theorem setPending_cause (rest : List HostInput) (s : State) : (setPending rest s).cause = s.cause := rfl
@[simp] theorem setPending_oqpskChip (rest : List HostInput) (s : State) : (setPending rest s).oqpskChip = s.oqpskChip := rfl
@[simp] theorem setPending_pending (rest : List HostInput) (s : State) : (setPending rest s).pending = rest := rfl

@[simp] theorem reset_cfgValid : State.reset.cfgValid = false := rfl
@[simp] theorem reset_cfgMod : State.reset.cfgMod = .bpsk := rfl
@[simp] theorem reset_cfgThresh : State.reset.cfgThresh = 0 := rfl
@[simp] theorem reset_result : State.reset.result = 0 := rfl
@[simp] theorem reset_hit : State.reset.hit = false := rfl
@[simp] theorem reset_fault : State.reset.fault = false := rfl
@[simp] theorem reset_cause : State.reset.cause = 0 := rfl
@[simp] theorem reset_oqpskChip : State.reset.oqpskChip = Config.oqpskChip := rfl
@[simp] theorem reset_pending : State.reset.pending = [] := rfl

end Sys2Proof.Machine
end

