-- ==== Sys2Proof/Laws/Ops.lean ====
section
/-! SUPPORT. What each shared operation can answer, said once. -/

namespace Sys2Proof.Machine

theorem modulationOperand_cases (m : Word) :
    (m.toNat = 0 ∧ modulationOperand m = some .bpsk) ∨ (m.toNat = 1 ∧ modulationOperand m = some .oqpsk)
      ∨ (1 < m.toNat ∧ modulationOperand m = none) := by
  unfold modulationOperand
  split
  · exact .inl ⟨by assumption, rfl⟩
  · split
    · exact .inr (.inl ⟨by assumption, rfl⟩)
    · exact .inr (.inr ⟨by omega, rfl⟩)

theorem cps_lt (m : Modulation) : cps m < 64 := by cases m <;> decide

theorem thresholdOperand_cases (m : Modulation) (t : Word) :
    (cps m < t.toNat ∧ thresholdOperand m t = none)
      ∨ (t.toNat ≤ cps m ∧ ∃ th, thresholdOperand m t = some th ∧ th.toNat = t.toNat) := by
  unfold thresholdOperand
  split
  · next h =>
    refine .inr ⟨h, _, rfl, ?_⟩
    have := cps_lt m
    simp only [BitVec.extractLsb'_toNat, Nat.shiftRight_zero]
    omega
  · exact .inl ⟨by omega, rfl⟩

theorem symbolOperand_cases (m : Modulation) (s : Word) :
    (nsym m ≤ s.toNat ∧ symbolOperand m s = none)
      ∨ (∃ h : s.toNat < nsym m, symbolOperand m s = some ⟨s.toNat, h⟩) := by
  unfold symbolOperand
  split
  · next h => exact .inr ⟨h, rfl⟩
  · exact .inl ⟨by omega, rfl⟩

/-- One turn of the scan keeps the best or takes a strictly nearer entry (41_chip_codec.md R74). -/
theorem keepNearer_cases (rom : Vector Word 15) (m : Modulation) (c : Word) (best : Best m) (i : Fin (nsym m)) :
    (best.dist ≤ entryDistance rom m c i ∧ keepNearer rom m c best i = best)
      ∨ (entryDistance rom m c i < best.dist ∧ keepNearer rom m c best i = ⟨i, entryDistance rom m c i⟩) := by
  unfold keepNearer
  split
  · exact .inr ⟨by assumption, rfl⟩
  · exact .inl ⟨by omega, rfl⟩

theorem popcount_le (v : Word) : popcount v ≤ 32 := by
  have := List.countP_le_length (p := fun k => v.getLsbD k) (l := List.range 32)
  simpa [popcount] using this

theorem hammingDistance_le (x y : Word) : hammingDistance x y ≤ 32 := popcount_le _

/-- A command that runs ends in a next state: with a fault recorded, or with RESULT and HIT written and, after a CFG, the
configuration. -/
theorem exec_cases (i : Instr) (s : State) :
    (∃ c, (c = .badModulation ∨ c = .badThreshold ∨ c = .notConfigured ∨ c = .symbolRange)
        ∧ exec i s = .next (raiseFault c s))
      ∨ (∃ x y, i = .hd x y ∧ exec i s = .next (writeResult (BitVec.ofNat 32 (hammingDistance x y)) false s))
      ∨ (∃ m t modulation th, i = .cfg m t ∧ modulationOperand m = some modulation ∧ th.toNat = t.toNat
        ∧ t.toNat ≤ cps modulation ∧ exec i s = .next (writeResult 0 false (configure modulation th s)))
      ∨ (∃ sym opb, ∃ h : sym.toNat < nsym s.cfgMod, i = .enc sym opb ∧ s.cfgValid = true
        ∧ exec i s = .next (writeResult (romRead s.oqpskChip s.cfgMod ⟨sym.toNat, h⟩).chip false s))
      ∨ (∃ c opb, i = .dec c opb ∧ s.cfgValid = true ∧ (nearest s.oqpskChip s.cfgMod c).dist ≤ s.cfgThresh.toNat
        ∧ exec i s = .next (writeResult
            (romRead s.oqpskChip s.cfgMod (nearest s.oqpskChip s.cfgMod c).idx).symbol true s))
      ∨ (∃ c opb, i = .dec c opb ∧ s.cfgValid = true ∧ s.cfgThresh.toNat < (nearest s.oqpskChip s.cfgMod c).dist
        ∧ exec i s = .next (writeResult 0 false s)) := by
  cases i with
  | hd x y => exact .inr (.inl ⟨x, y, rfl, rfl⟩)
  | cfg m t =>
    cases h : modulationOperand m with
    | none => exact .inl ⟨.badModulation, .inl rfl, by simp only [exec, execCfg, h]⟩
    | some modulation =>
      obtain ⟨-, g⟩ | ⟨hle, th, g, hth⟩ := thresholdOperand_cases modulation t
      · exact .inl ⟨.badThreshold, .inr (.inl rfl), by simp only [exec, execCfg, h, g]⟩
      · exact .inr (.inr (.inl ⟨m, t, modulation, th, rfl, h, hth, hle, by simp only [exec, execCfg, h, g]⟩))
  | enc sym opb =>
    simp only [exec, execEnc]
    split
    · next hv =>
      obtain ⟨-, h⟩ | ⟨hlt, h⟩ := symbolOperand_cases s.cfgMod sym <;> simp only [h]
      · exact .inl ⟨.symbolRange, .inr (.inr (.inr rfl)), rfl⟩
      · exact .inr (.inr (.inr (.inl ⟨sym, opb, hlt, rfl, hv, rfl⟩)))
    · exact .inl ⟨.notConfigured, .inr (.inr (.inl rfl)), rfl⟩
  | dec c opb =>
    simp only [exec, execDec, withinThreshold, decide_eq_true_eq]
    split
    · next hv =>
      split
      · next hd => exact .inr (.inr (.inr (.inr (.inl ⟨c, opb, rfl, hv, hd, rfl⟩))))
      · next hd => exact .inr (.inr (.inr (.inr (.inr ⟨c, opb, rfl, hv, by omega, rfl⟩))))
    · exact .inl ⟨.notConfigured, .inr (.inr (.inl rfl)), rfl⟩

/-- One step takes the first waiting input, and each kind of input has one outcome (60_exceptions.md R96). -/
theorem step_cases (s : State) :
    (s.pending = [] ∧ step s = .next s)
      ∨ (∃ rest, s.pending = .reset :: rest ∧ step s = .next (hostReset (setPending rest s)))
      ∨ (∃ t rest, s.pending = .transact t :: rest ∧ s.fault = true ∧ step s = .next (setPending rest s))
      ∨ (∃ t rest e, s.pending = .transact t :: rest ∧ s.fault = false ∧ decode t = .error e
        ∧ step s = .next (raiseFault .illegalCommand (setPending rest s)))
      ∨ (∃ t rest i, s.pending = .transact t :: rest ∧ s.fault = false ∧ decode t = .ok i
        ∧ step s = exec i (setPending rest s)) := by
  simp only [step, takeNext]
  split
  · next h => exact .inl ⟨h, rfl⟩
  · next input rest h =>
    cases input with
    | reset => exact .inr (.inl ⟨rest, h, rfl⟩)
    | transact t =>
      cases hf : s.fault with
      | true => exact .inr (.inr (.inl ⟨t, rest, h, rfl, by simp [takeInput, transact, hf]⟩))
      | false =>
        cases hd : decode t with
        | error e => exact .inr (.inr (.inr (.inl ⟨t, rest, e, h, rfl, hd, by simp [takeInput, transact, hf, hd]⟩)))
        | ok i => exact .inr (.inr (.inr (.inr ⟨t, rest, i, h, rfl, hd, by simp [takeInput, transact, hf, hd]⟩)))

end Sys2Proof.Machine
end

