-- ==== Sys2Proof/Laws/PerInstr.lean ====
section
/-! SUPPORT. Facts about every instruction as syntax, one lemma per constructor. -/

namespace Sys2Proof.Laws.CommandWord

/-- The command word of `i` has its reserved bits 0 and, with any two operands, decodes to the same command with those operands
(30_encoding.md R54, R55, R62: the decoder does not read OPA or OPB). -/
def Statement (i : Instr) : Prop :=
  reservedField (encode i).cmd = 0
    ∧ ∀ a b, ∃ j, decode ⟨(encode i).cmd, a, b⟩ = .ok j ∧ encode j = ⟨(encode i).cmd, a, b⟩

theorem hd (x y : Word) : Statement (.hd x y) :=
  ⟨by simp [encode, reservedField], fun a b => ⟨.hd a b, by simp [decode, encode, reservedField, opField], rfl⟩⟩

theorem cfg (m t : Word) : Statement (.cfg m t) :=
  ⟨by simp [encode, reservedField], fun a b => ⟨.cfg a b, by simp [decode, encode, reservedField, opField], rfl⟩⟩

theorem enc (s opb : Word) : Statement (.enc s opb) :=
  ⟨by simp [encode, reservedField], fun a b => ⟨.enc a b, by simp [decode, encode, reservedField, opField], rfl⟩⟩

theorem dec (c opb : Word) : Statement (.dec c opb) :=
  ⟨by simp [encode, reservedField], fun a b => ⟨.dec a b, by simp [decode, encode, reservedField, opField], rfl⟩⟩

end Sys2Proof.Laws.CommandWord
end

