-- ==== Sys2Proof/Tests/Slice0.lean ====
section
/-! SUPPORT. Tests with expected values from spec/95_test_vectors.md, the smoke tests of the well-formedness check, and for every
statement of Obligations.lean a state that meets its hypotheses. States here hold the candidate table, so that they evaluate. -/

namespace Sys2Proof.Tests

open Sys2Proof.Machine

/-- The reset state with the candidate table in the ROM. -/
def fresh : State := { State.reset with oqpskChip := candidateChip derivedEntry11 }

/-- A block configured by a completed CFG. -/
def configured (m : Modulation) (th : BitVec 6) : State := configure m th fresh

/-- A block halted by `c`. -/
def halted (c : Cause) : State := raiseFault c fresh

def waiting (inputs : List HostInput) (s : State) : State := setPending inputs s

/-- The response of the state an outcome answers. -/
def responseOf : Host.Outcome State Fault Refusal → Option (Word × Word)
  | .next s => some (response s)
  | _ => none

/-! ## Decoding and well-formedness -/

/-- 30_encoding.md R55, HD: OP = 0001. -/
theorem test_decode_hd : decode ⟨0b00000000000000000000000000000001, 0x12, 0x34⟩ = .ok (.hd 0x12 0x34) := by decide
/-- R55, CFG: OP = 0010. -/
theorem test_decode_cfg : decode ⟨0b00000000000000000000000000000010, 1, 32⟩ = .ok (.cfg 1 32) := by decide
/-- R55, ENC: OP = 0011. -/
theorem test_decode_enc : decode ⟨0b00000000000000000000000000000011, 7, 9⟩ = .ok (.enc 7 9) := by decide
/-- R55, DEC: OP = 0100. -/
theorem test_decode_dec : decode ⟨0b00000000000000000000000000000100, 0x9ae, 0⟩ = .ok (.dec 0x9ae 0) := by decide
/-- 95 section 2.6: 0x00000011 has reserved bit 4 set with OP = HD. -/
theorem test_decode_reserved_bit : decode ⟨0x00000011, 1, 2⟩ = .error .reservedBits := by decide
/-- 95 section 2.6: OP 0x0 and 0x5. -/
theorem test_decode_reserved_opcode :
    decode ⟨0x00000000, 0, 0⟩ = .error .reservedOpcode ∧ decode ⟨0x00000005, 0, 0⟩ = .error .reservedOpcode := by decide
theorem test_table_word : decodeTableWord 32 3 = some (.enc 0 0) ∧ decodeTableWord 32 15 = none := by decide

/-- Every form refuses a number that does not fit in 32 bits (R63), in each of its operands. -/
theorem test_wellformed_refuses_wide_numbers :
    [AsmForm.hd (2 ^ 32) 0, .hd 0 (2 ^ 32), .cfgNamed .bpsk (2 ^ 32), .cfg (2 ^ 32) 0, .cfg 0 (2 ^ 32), .enc (2 ^ 32),
      .dec (2 ^ 32), .raw (2 ^ 32) 0 0, .raw 0 (2 ^ 32) 0, .raw 0 0 (2 ^ 32)].all (fun f => !f.wellFormed) = true := by decide
theorem test_wellformed_accepts_widest : (AsmForm.raw (2 ^ 32 - 1) (2 ^ 32 - 1) (2 ^ 32 - 1)).wellFormed = true := by decide
theorem test_wellformed_instr : [Instr.hd 0 0, .cfg 2 99, .enc 16 1, .dec 0 1].all Instr.wellFormed = true := by decide

/-! ## The commands (spec/95_test_vectors.md) -/

/-- Section 2.1: the distance of 0x12345678 and 0x87654321 is 14. -/
theorem test_hd_value : responseOf (exec (.hd 0x12345678 0x87654321) fresh) = some (0x0000000e, 0) := by decide
/-- Section 2.1: after CFG OQPSK, 5, HD 0xffffffff, 0 gives 00000020 / 00000506. -/
theorem test_hd_keeps_configuration :
    responseOf (exec (.hd 0xffffffff 0) (configured .oqpsk 5)) = some (0x00000020, 0x00000506) := by decide
/-- S8: CFG BPSK, 15 gives 00000000 / 00000f02. -/
theorem test_cfg_at_bound : responseOf (exec (.cfg 0 15) fresh) = some (0, 0x00000f02) := by decide
/-- Section 2.2: CFG 2, 99 gives BAD_MODULATION before BAD_THRESHOLD. -/
theorem test_cfg_priority : responseOf (exec (.cfg 2 99) fresh) = some (0, 0x80020000) := by decide
/-- Section 2.3: after CFG BPSK, 0, ENC 1 with OPB 0xdead gives 00007650 / 00000002. -/
theorem test_enc_value : responseOf (exec (.enc 1 0xdead) (configured .bpsk 0)) = some (0x00007650, 0x00000002) := by decide
/-- Section 2.3: ENC 0x100 gives SYMBOL_RANGE, never a symbol modulo NSYM. -/
theorem test_enc_range : responseOf (exec (.enc 0x100 0) (configured .bpsk 0)) = some (0, 0x80050002) := by decide
/-- Section 2.4: after CFG BPSK, 7, DEC 0x00008000 misses and DEC 0x00000950 hits symbol 1. -/
theorem test_dec_bpsk : responseOf (exec (.dec 0x00008000 0) (configured .bpsk 7)) = some (0, 0x00000702)
    ∧ responseOf (exec (.dec 0x00000950 0xdeadbeef) (configured .bpsk 7)) = some (1, 0x00000703) := by decide
/-- S14 [cand]: after CFG OQPSK, 9, DEC 0x6ce04519 ties at 9 between entries 2 and 9, and entry 2 wins. -/
theorem test_dec_tie : responseOf (exec (.dec 0x6ce04519 0) (configured .oqpsk 9)) = some (2, 0x00000907) := by decide

/-! ## Transactions, reset and listing -/

/-- Section 2.6: 80000004 from reset gives ILLEGAL_COMMAND, before NOT_CONFIGURED. -/
theorem test_illegal_before_not_configured :
    responseOf (step (waiting [.transact ⟨0x80000004, 0, 0⟩] fresh)) = some (0, 0x80010000) := by decide
/-- Section 2.6: a block halted by CFG OQPSK, 33 ignores CFG BPSK, 0. -/
theorem test_halted_ignores :
    responseOf (step (waiting [.transact ⟨2, 0, 0⟩] (halted .badThreshold))) = some (0, 0x80030000) := by decide
/-- Section 2.6: reset clears a fault. -/
theorem test_reset_clears : responseOf (step (waiting [.reset] (halted .symbolRange))) = some (0, 0) := by decide
/-- The first instruction after reset: ENC 0 raises NOT_CONFIGURED (section 2.3), whatever the free table is. -/
theorem test_first_step_after_reset : responseOf (step (State.reset.withFetchWord 32 3)) = some (0, 0x80040000) := by decide
/-- R65's own example, letter for letter: `DEC 0x000009ae ; 00000004 000009ae 00000000`. -/
theorem test_listing : listing ⟨4, 0x000009ae, 0⟩ = ['D', 'E', 'C', ' ', '0', 'x', '0', '0', '0', '0', '0', '9', 'a', 'e', ' ', ';',
    ' ', '0', '0', '0', '0', '0', '0', '0', '4', ' ', '0', '0', '0', '0', '0', '9', 'a', 'e', ' ', '0', '0', '0', '0', '0', '0', '0',
    '0'] := by decide
/-- R63: mnemonics in either case, a named modulation, a binary number, a comment. -/
theorem test_read_line : readLine ['c', 'F', 'g', ' ', 'O', 'Q', 'P', 'S', 'K', ',', ' ', '0', 'b', '1', '1', ' ', ';', 'x']
    = some [.cfgNamed .oqpsk 3] := by decide

/-! ## Witnesses: the hypotheses of every statement are met by something -/

theorem witness_DecodeAndEncodeAreInverse :
    (Instr.dec 0xffffffff 1).wellFormed = true ∧ decode ⟨4, 0xffffffff, 1⟩ = .ok (.dec 0xffffffff 1) := by decide

theorem witness_OtherCommandWordsRaiseIllegalCommand :
    (0x00000011 : Word).toNat / 16 ≠ 0
    ∧ ((0 : Word).toNat < 16 ∧ (0 : Word).toNat = 0) ∧ ((5 : Word).toNat < 16 ∧ 5 ≤ (5 : Word).toNat)
    ∧ (waiting [.transact ⟨0x15, 0, 0⟩] fresh).pending = [.transact ⟨0x15, 0, 0⟩]
    ∧ (waiting [.transact ⟨0x15, 0, 0⟩] fresh).fault = false ∧ (0x15 : Word).toNat / 16 ≠ 0 := by decide

theorem witness_EncAndDecIgnoreOpb : (3 : Word) = 3 ∧ (4 : Word) = 4 := by decide

theorem witness_StepRunsTheDecodedCommand :
    ((waiting [.transact ⟨1, 0, 0⟩] (halted .badThreshold)).pending = [.transact ⟨1, 0, 0⟩]
      ∧ (waiting [.transact ⟨1, 0, 0⟩] (halted .badThreshold)).fault = true)
    ∧ ((waiting [.transact ⟨5, 0, 0⟩] fresh).pending = [.transact ⟨5, 0, 0⟩]
      ∧ (waiting [.transact ⟨5, 0, 0⟩] fresh).fault = false ∧ decode ⟨5, 0, 0⟩ = .error .reservedOpcode)
    ∧ (waiting [.transact ⟨1, 0, 0⟩] fresh).pending = [.transact ⟨1, 0, 0⟩]
    ∧ (waiting [.transact ⟨1, 0, 0⟩] fresh).fault = false ∧ decode ⟨1, 0, 0⟩ = .ok (.hd 0 0) := by decide

theorem witness_FetchedWordRunsNext : fresh.fault = false ∧ decodeTableWord 96 (2 ^ 32 * 7 + 4) = some (.dec 7 0) := by decide

theorem witness_IdleBlockHoldsItsState : fresh.pending = [] := by decide

theorem witness_FaultedBlockIgnoresTransactions :
    (waiting [.transact ⟨1, 0, 0⟩, .transact ⟨9, 0, 0⟩, .reset] (halted .badThreshold)).fault = true
    ∧ (waiting [.transact ⟨1, 0, 0⟩, .transact ⟨9, 0, 0⟩, .reset] (halted .badThreshold)).pending
      = [⟨1, 0, 0⟩, ⟨9, 0, 0⟩].map HostInput.transact ++ [.reset] := by decide

theorem witness_CleanEndMeansNoFaultOnTheWay :
    HostInput.reset ∉ (waiting [.transact ⟨1, 0, 0⟩, .transact ⟨2, 0, 0⟩] fresh).pending
    ∧ runsClean 2 (waiting [.transact ⟨1, 0, 0⟩, .transact ⟨2, 0, 0⟩] fresh) ∧ 1 ≤ 2 :=
  ⟨by decide, ⟨_, rfl, rfl⟩, by decide⟩

theorem witness_ResetLeavesTheValuesOfTheTable :
    (waiting [.reset, .transact ⟨1, 0, 0⟩] (halted .symbolRange)).pending = .reset :: [.transact ⟨1, 0, 0⟩] := by decide

/-- A reset step clears FAULT and CAUSE of a halted block, and CFG_VALID of a configured one. -/
theorem witness_OnlyResetClearsFaultCauseAndCfgValid :
    (∃ t, step (waiting [.reset] (halted .symbolRange)) = .next t ∧ (halted .symbolRange).fault = true ∧ t.fault = false
      ∧ (halted .symbolRange).cause ≠ 0 ∧ t.cause = 0)
    ∧ ∃ t, step (waiting [.reset] (configured .oqpsk 9)) = .next t ∧ (configured .oqpsk 9).cfgValid = true
      ∧ t.cfgValid = false :=
  ⟨⟨_, rfl, by decide⟩, ⟨_, rfl, by decide⟩⟩

theorem witness_AfterResetHdWorksAndEncDecFault :
    (waiting [.reset, .transact ⟨1, 3, 0⟩] fresh).pending = .reset :: .transact ⟨1, 3, 0⟩ :: []
    ∧ (waiting [.reset, .transact ⟨3, 3, 0⟩] fresh).pending = .reset :: .transact ⟨3, 3, 0⟩ :: [] := by decide

theorem witness_HdCountsTheDifferingBits :
    (5 : Word) = 5 ∧ (0xfffffffa : Word) = ~~~(5 : Word) ∧ (0 : Word) = 0 := by decide

theorem witness_HdOfZeroExtendedOperands : (1 ≤ 1 ∧ 1 ≤ 32) ∧ (1 ≤ 32 ∧ 32 ≤ 32) := by decide

theorem witness_CfgConfiguresOrFaults :
    ((0 : Word) = 0 ∧ (15 : Word).toNat ≤ 15) ∧ ((1 : Word) = 1 ∧ (32 : Word).toNat ≤ 32) ∧ 1 < (2 : Word).toNat
    ∧ 15 < (16 : Word).toNat ∧ 32 < (33 : Word).toNat := by decide

theorem witness_CfgForgetsTheOldConfiguration :
    (⟨2, 1, 32⟩ : Transaction).cmd = 2 ∧ (⟨2, 1, 32⟩ : Transaction).opa.toNat ≤ 1
    ∧ (⟨2, 1, 32⟩ : Transaction).opb.toNat ≤ (if (⟨2, 1, 32⟩ : Transaction).opa = 0 then 15 else 32)
    ∧ (waiting [.transact ⟨2, 1, 32⟩] fresh).fault = false
    ∧ (waiting [.transact ⟨2, 1, 32⟩] (configured .bpsk 3)).fault = false
    ∧ (waiting [.transact ⟨2, 1, 32⟩] fresh).cause = (waiting [.transact ⟨2, 1, 32⟩] (configured .bpsk 3)).cause
    ∧ (waiting [.transact ⟨2, 1, 32⟩] fresh).oqpskChip = (waiting [.transact ⟨2, 1, 32⟩] (configured .bpsk 3)).oqpskChip
    ∧ (waiting [.transact ⟨2, 1, 32⟩] fresh).pending = .transact ⟨2, 1, 32⟩ :: []
    ∧ (waiting [.transact ⟨2, 1, 32⟩] (configured .bpsk 3)).pending = .transact ⟨2, 1, 32⟩ :: [] := by decide

theorem witness_CfgAppliesToTheVeryNextDec :
    (waiting [.transact ⟨2, 0, 15⟩, .transact ⟨4, 0, 0⟩] fresh).fault = false ∧ (15 : Word).toNat ≤ cps .bpsk
    ∧ (waiting [.transact ⟨2, 0, 15⟩, .transact ⟨4, 0, 0⟩] fresh).pending
      = .transact ⟨2, BitVec.ofNat 32 (modCode .bpsk).toNat, 15⟩ :: .transact ⟨4, 0, 0⟩ :: [] := by decide

theorem witness_CodebookRomNeverChanges :
    ∃ t, Host.Core.run Sys2Proof.core 2 (waiting [.reset, .transact ⟨9, 0, 0⟩] fresh) = .next t := ⟨_, rfl⟩

theorem witness_EncLooksUpOrFaults :
    fresh.cfgValid = false
    ∧ ((configured .bpsk 0).cfgValid = true ∧ (configured .bpsk 0).cfgMod = .bpsk ∧ 2 ≤ (2 : Word).toNat)
    ∧ (configured .oqpsk 0).cfgValid = true ∧ (configured .oqpsk 0).cfgMod = .oqpsk
    ∧ (1 : Word).toNat = (0 : Fin 15) + 1 ∧ (15 : Word).toNat = (14 : Fin 15) + 1 ∧ 16 ≤ (16 : Word).toNat := by decide

theorem witness_DecFindsTheFirstNearestEntry : fresh.cfgValid = false ∧ (configured .oqpsk 32).cfgValid = true := by decide

def missing : State := waiting [.transact ⟨4, 0xffffffff, 0⟩] (configured .bpsk 15)

theorem witness_DecodeMissIsNoFault :
    missing.fault = false ∧ missing.cfgValid = true ∧ missing.pending = .transact ⟨4, 0xffffffff, 0⟩ :: []
    ∧ ∀ i, missing.cfgThresh.toNat
      < differingBits (0xffffffff : Word) (romRead missing.oqpskChip missing.cfgMod i).chip := by decide

theorem witness_DecodeUndoesEncodeAndIsMonotone :
    (configured .oqpsk 31).cfgValid = true ∧ TableDistinct (configured .oqpsk 31).oqpskChip
    ∧ (15 : Word).toNat < nsym (configured .oqpsk 31).cfgMod
    ∧ differingBits (0x6077ae6c : Word) (romRead (configured .oqpsk 31).oqpskChip .oqpsk ⟨0, by decide⟩).chip = 0
    ∧ (configured .oqpsk 31).cfgThresh < 32 ∧ (32 : BitVec 6).toNat ≤ cps (configured .oqpsk 31).cfgMod := by decide

/-- Four chip words, one for each of the last clauses of the BPSK facts: hi = 0, hi = 16, hi = 17, lo = 8. -/
theorem witness_BpskDecodeNeverTies :
    (configured .bpsk 7).cfgValid = true ∧ (configured .bpsk 7).cfgMod = .bpsk ∧ 7 ≤ (configured .bpsk 7).cfgThresh.toNat
    ∧ ((Finset.range 17).filter fun k => (0x00007fff : Word).getLsbD (15 + k) = true).card = 0
    ∧ ((Finset.range 17).filter fun k => (0x7fff8000 : Word).getLsbD (15 + k) = true).card = 16
    ∧ ((Finset.range 17).filter fun k => (0xffffffff : Word).getLsbD (15 + k) = true).card = 17
    ∧ ((Finset.range 15).filter fun k => ((0 : Word) ^^^ 0x000009af).getLsbD k = true).card = 8 := by decide

theorem witness_OqpskExactEntriesDecode :
    (configured .oqpsk 32).cfgValid = true ∧ (configured .oqpsk 32).cfgMod = .oqpsk
    ∧ TableDistinct (configured .oqpsk 32).oqpskChip ∧ (configured .oqpsk 32).cfgThresh = 32 := by decide

theorem witness_CandidateBit31NeverChangesTheWinner :
    (0x1931f885 : Word) = derivedEntry11 ∧ (0x1931f88f : Word) = recalledEntry11 := by decide

theorem witness_HitTellsADecodeHit :
    (∃ t, step (waiting [.transact ⟨4, 0x9af, 0⟩] (configured .bpsk 0)) = .next t ∧ t.fault = false ∧ t.hit = true)
    ∧ ∃ t, step (waiting [.transact ⟨3, 2, 0⟩] (configured .bpsk 0)) = .next t ∧ t.fault = true :=
  ⟨⟨_, rfl, by decide⟩, ⟨_, rfl, by decide⟩⟩

theorem witness_OnlyCfgWritesTheConfiguration : ∃ t, exec (.cfg 1 32) fresh = .next t := ⟨_, rfl⟩

theorem witness_HdEncDecFrame :
    (∀ m th, Instr.enc 0 0 ≠ .cfg m th) ∧ ∃ t, exec (.enc 0 0) (configured .bpsk 0) = .next t :=
  ⟨(fun _ _ h => by cases h), _, rfl⟩

def between : State := waiting [.transact ⟨1, 5, 6⟩, .transact ⟨3, 1, 0⟩] (configured .bpsk 3)

theorem witness_ResultsIgnoreInterveningCommands :
    between.fault = false ∧ (∀ x ∈ [(⟨1, 5, 6⟩ : Transaction), ⟨3, 1, 0⟩], x.cmd ≠ 2)
    ∧ (∀ m th, Instr.dec 0x9a8 0 ≠ .cfg m th)
    ∧ between.pending = [(⟨1, 5, 6⟩ : Transaction), ⟨3, 1, 0⟩].map HostInput.transact ++ []
    ∧ ∃ u v w, Host.Core.run Sys2Proof.core 2 between = .next u ∧ u.fault = false
      ∧ exec (.dec 0x9a8 0) between = .next v ∧ exec (.dec 0x9a8 0) u = .next w :=
  ⟨by decide, by decide, (fun _ _ h => by cases h), by decide, _, _, _, rfl, rfl, rfl, rfl⟩

/-- One transaction for every line of the order of R93, each answered with its own cause. -/
theorem witness_FaultPriority :
    responseOf (step (waiting [.transact ⟨1, 0, 0⟩] (halted .badModulation))) = some (0, 0x80020000)
    ∧ responseOf (step (waiting [.transact ⟨16, 0, 0⟩] fresh)) = some (0, 0x80010000)
    ∧ responseOf (step (waiting [.transact ⟨2, 2, 0⟩] fresh)) = some (0, 0x80020000)
    ∧ responseOf (step (waiting [.transact ⟨2, 0, 16⟩] fresh)) = some (0, 0x80030000)
    ∧ responseOf (step (waiting [.transact ⟨4, 0, 0⟩] fresh)) = some (0, 0x80040000)
    ∧ responseOf (step (waiting [.transact ⟨3, 16, 0⟩] (configured .oqpsk 0))) = some (0, 0x80050006)
    ∧ responseOf (step (waiting [.transact ⟨3, 0, 0⟩] (configured .oqpsk 0))) = some (0x6077ae6c, 0x00000006) := by decide

theorem witness_FaultsArePrecise :
    (waiting [.transact ⟨2, 1, 33⟩, .transact ⟨1, 0, 0⟩] fresh).fault = false
    ∧ ∃ t, step (waiting [.transact ⟨2, 1, 33⟩, .transact ⟨1, 0, 0⟩] fresh) = .next t ∧ t.fault = true :=
  ⟨by decide, _, rfl, by decide⟩

theorem witness_EveryStepKeepsTheInvariant :
    Invariant (waiting [.transact ⟨4, 0x9af, 0⟩] (configured .bpsk 15))
    ∧ ∃ t, step (waiting [.transact ⟨4, 0x9af, 0⟩] (configured .bpsk 15)) = .next t := ⟨by decide, _, rfl⟩

theorem witness_EveryRunGoesOnAndKeepsTheInvariant : Invariant (halted .badThreshold) := by decide

theorem witness_AssemblerUndoesDisassembler : decode ⟨0x11, 1, 2⟩ = .error .reservedBits := by decide

end Sys2Proof.Tests
end

/-! ## The invariant

What every operation, every command and every step keeps of the block's invariant, and what a run therefore keeps. -/

namespace Sys2Proof.Machine

/-- Every cause but NONE has a code of 60_exceptions.md R87, never a reserved one. -/
theorem causeCode_bounds {c : Cause} (h : c ≠ .none) : 1 ≤ (causeCode c).toNat ∧ (causeCode c).toNat ≤ 5 := by
  cases c with
  | none => exact absurd rfl h
  | illegalCommand | badModulation | badThreshold | notConfigured | symbolRange => decide

/-- The invariant says nothing of the host inputs still waiting. -/
theorem invariant_setPending (rest : List HostInput) {s : State} (h : Invariant s) : Invariant (setPending rest s) := h

theorem invariant_raiseFault {c : Cause} (hc : c ≠ .none) {s : State} (h : Invariant s) : Invariant (raiseFault c s) := by
  obtain ⟨hthresh, -, hunconf, hshows, htable⟩ := h
  have hcause : CauseMatchesFault (raiseFault c s) := ⟨by simp, fun _ => causeCode_bounds hc⟩
  exact ⟨hthresh, hcause, hunconf, hshows, htable⟩

/-- Of the old state a reset keeps only the ROM, so the ROM's distinctness is all it needs (70_reset_and_hazards.md R107). -/
theorem invariant_hostReset {s : State} (htable : TableDistinct s.oqpskChip) : Invariant (hostReset s) := by
  refine ⟨?threshold, ?cause, ?unconfigured, ?hit, htable⟩
  case threshold => simp [ThresholdBounded]
  case cause => simp [CauseMatchesFault]
  case unconfigured => simp [UnconfiguredAsReset]
  case hit => simp [HitShowsSymbol]

/-- A command that completes keeps the invariant when the hit it reports shows a symbol of a configured codebook. -/
theorem invariant_writeResult {value : Word} {hit : Bool} {s : State} (h : Invariant s)
    (hshows : hit = true → s.cfgValid = true ∧ value.toNat < nsym s.cfgMod) : Invariant (writeResult value hit s) := by
  obtain ⟨hthresh, hcause, hunconf, -, htable⟩ := h
  exact ⟨hthresh, hcause, hunconf, hshows, htable⟩

/-- Without a hit the value written is free. -/
theorem invariant_writeResult_noHit (value : Word) {s : State} (h : Invariant s) : Invariant (writeResult value false s) :=
  invariant_writeResult h (by simp)

/-- The configuration alone could break `HitShowsSymbol` of an older hit; the cleared HIT of the same CFG keeps it (R71). -/
theorem invariant_writeResult_configure {m : Modulation} {th : BitVec 6} (hth : th.toNat ≤ cps m) (value : Word) {s : State}
    (h : Invariant s) : Invariant (writeResult value false (configure m th s)) := by
  obtain ⟨-, hcause, -, -, htable⟩ := h
  refine ⟨fun _ => hth, hcause, ?unconfigured, ?hit, htable⟩
  case unconfigured => simp [UnconfiguredAsReset]
  case hit => simp [HitShowsSymbol]

theorem exec_keeps_invariant {i : Instr} {s t : State} (h : Invariant s) (ht : exec i s = .next t) : Invariant t := by
  obtain ⟨c, hc, hrun⟩ | ⟨x, y, -, hrun⟩ | ⟨m, thr, modulation, th, -, -, hth, hle, hrun⟩ |
    ⟨sym, opb, hsym, -, -, hrun⟩ | ⟨c, opb, -, hvalid, -, hrun⟩ | ⟨c, opb, -, -, -, hrun⟩ := exec_cases i s
  all_goals obtain rfl := Host.Outcome.next.inj (hrun.symm.trans ht)
  · exact invariant_raiseFault (by rintro rfl; simp at hc) h
  · exact invariant_writeResult_noHit _ h
  · exact invariant_writeResult_configure (hth ▸ hle) _ h
  · exact invariant_writeResult_noHit _ h
  · have hsymbol (j : Fin (nsym s.cfgMod)) : (romRead s.oqpskChip s.cfgMod j).symbol.toNat < nsym s.cfgMod := by
      rw [romRead_symbol_toNat]
      exact j.isLt
    exact invariant_writeResult h fun _ => ⟨hvalid, hsymbol _⟩
  · exact invariant_writeResult_noHit _ h

theorem step_keeps_invariant {s t : State} (h : Invariant s) (ht : step s = .next t) : Invariant t := by
  obtain ⟨-, hs⟩ | ⟨rest, -, hs⟩ | ⟨tx, rest, -, -, hs⟩ | ⟨tx, rest, e, -, -, -, hs⟩ | ⟨tx, rest, i, -, -, -, hs⟩ :=
    step_cases s
  all_goals rw [hs] at ht
  · cases ht
    exact h
  · cases ht
    obtain ⟨-, -, -, -, htable⟩ := h
    exact invariant_hostReset htable
  · cases ht
    exact invariant_setPending rest h
  · cases ht
    exact invariant_raiseFault (by decide) (invariant_setPending rest h)
  · exact exec_keeps_invariant (invariant_setPending rest h) ht

/-- Only the arm that runs a command needs an argument: every command answers a next state (`exec_answers`). -/
theorem step_answers (s : State) : ∃ t, step s = .next t := by
  obtain ⟨-, hs⟩ | ⟨rest, -, hs⟩ | ⟨tx, rest, -, -, hs⟩ | ⟨tx, rest, e, -, -, -, hs⟩ | ⟨tx, rest, i, -, -, -, hs⟩ :=
    step_cases s
  · exact ⟨_, hs⟩
  · exact ⟨_, hs⟩
  · exact ⟨_, hs⟩
  · exact ⟨_, hs⟩
  · rw [hs]
    exact exec_answers i (setPending rest s)

/-- The induction over the length of a run, once for every property that each step keeps. -/
theorem run_answers_and_keeps {P : State → Prop} (keeps : ∀ {s t : State}, P s → step s = .next t → P t) (k : Nat)
    {s : State} (hs : P s) : ∃ t, Host.Core.run Sys2Proof.core k s = .next t ∧ P t := by
  induction k generalizing s with
  | zero => exact ⟨s, run_none s, hs⟩
  | succ k ih =>
    obtain ⟨u, hu⟩ := step_answers s
    rw [run_succ_of_next hu]
    exact ih (keeps hs hu)

/-- Settles O44: the steps of the run are chained by `run_answers_and_keeps`. -/
theorem everyRunGoesOnAndKeepsTheInvariant : Obligations.EveryRunGoesOnAndKeepsTheInvariant := by
  unfold Obligations.EveryRunGoesOnAndKeepsTheInvariant
  intro s k h
  exact run_answers_and_keeps step_keeps_invariant k h

/-- Settles O8, from the inversion of the step and of every command. -/
theorem everyStepAnswersANextState : Obligations.EveryStepAnswersANextState := by
  unfold Obligations.EveryStepAnswersANextState
  exact step_answers

end Sys2Proof.Machine

/-! ## Counting bits

The model counts along a list of positions; the statements count the elements of a finite set. -/

namespace Sys2Proof.Machine

/-- `popcount` is Mathlib's `Nat.count` of the positions that hold a 1. -/
theorem popcount_eq_count (v : Word) : popcount v = Nat.count (fun k => v.getLsbD k = true) 32 := by
  simp only [popcount, Nat.count, Bool.decide_eq_true]

theorem popcount_eq_card (v : Word) : popcount v = ((Finset.range 32).filter fun k => v.getLsbD k = true).card := by
  rw [popcount_eq_count, Nat.count_eq_card_filter_range]

/-- Settles O15: the count of `popcount` over the 32 positions is the size of the set of positions that hold a 1. -/
theorem popcountCountsTheOnes : Obligations.PopcountCountsTheOnes := by
  unfold Obligations.PopcountCountsTheOnes
  intro v
  exact ⟨popcount_eq_card v, popcount_le v⟩

end Sys2Proof.Machine

/-! ## The codebook's quoted entries

The parameters and the codebook entries that the source gives. -/

namespace Sys2Proof.Machine

theorem nsym_eq_two_pow_bps (m : Modulation) : nsym m = 2 ^ bps m := by cases m <;> rfl

/-- The two BPSK chip patterns are complements of each other in their 15 chips (10_state.md R28). -/
theorem romRead_bpsk_xor (rom : Vector Word 15) :
    (romRead rom .bpsk ⟨0, by decide⟩).chip ^^^ (romRead rom .bpsk ⟨1, by decide⟩).chip = 0x00007fff := by
  rw [romRead_bpsk_zero, romRead_bpsk_one]
  decide

/-- Settles O23, entry by entry from the lemmas about `romRead`. -/
theorem codebookEntriesAsQuoted : Obligations.CodebookEntriesAsQuoted := by
  unfold Obligations.CodebookEntriesAsQuoted
  refine ⟨⟨rfl, rfl, rfl, rfl, nsym_eq_two_pow_bps⟩, fun rom => ?_⟩
  exact ⟨romRead_bpsk_zero rom, romRead_bpsk_one rom, romRead_bpsk_xor rom, romRead_oqpsk_zero rom,
    fun k => romRead_oqpsk_succ rom k _, romRead_symbol_toNat rom⟩

end Sys2Proof.Machine

/-! ## The invariant at one step -/

namespace Sys2Proof.Machine

/-- Settles O42, by `step_keeps_invariant`: the inversion of the step, and for a command the inversion of `exec`. -/
theorem everyStepKeepsTheInvariant : Obligations.EveryStepKeepsTheInvariant := by
  unfold Obligations.EveryStepKeepsTheInvariant
  intro s t h ht
  exact step_keeps_invariant h ht

end Sys2Proof.Machine

/-! ## What a command leaves unchanged

The ROM, the waiting inputs and the configuration. -/

namespace Sys2Proof.Machine

/-- No command writes the ROM or touches the waiting inputs (10_state.md R27; log 2). -/
theorem exec_frame {i : Instr} {s t : State} (ht : exec i s = .next t) :
    t.oqpskChip = s.oqpskChip ∧ t.pending = s.pending := by
  obtain ⟨_, _, hrun⟩ | ⟨_, _, _, hrun⟩ | ⟨_, _, _, _, _, _, _, _, hrun⟩ | ⟨_, _, _, _, _, hrun⟩ |
    ⟨_, _, _, _, _, hrun⟩ | ⟨_, _, _, _, _, hrun⟩ := exec_cases i s
  all_goals
    obtain rfl := Host.Outcome.next.inj (hrun.symm.trans ht)
    exact ⟨rfl, rfl⟩

/-- The operand a CFG accepts as a modulation is that modulation's code (00_scope.md R11). -/
theorem modCode_toNat_of_modulationOperand {m : Word} {modulation : Modulation}
    (h : modulationOperand m = some modulation) : (modCode modulation).toNat = m.toNat := by
  obtain ⟨hm, hop⟩ | ⟨hm, hop⟩ | ⟨-, hop⟩ := modulationOperand_cases m
  · obtain rfl := Option.some.inj (hop.symm.trans h)
    exact hm.symm
  · obtain rfl := Option.some.inj (hop.symm.trans h)
    exact hm.symm
  · simp [hop] at h

/-- Settles O36: of the outcomes of a command only the one of a completing CFG passes through `configure`. -/
theorem onlyCfgWritesTheConfiguration : Obligations.OnlyCfgWritesTheConfiguration := by
  unfold Obligations.OnlyCfgWritesTheConfiguration
  intro i s t ht
  obtain ⟨hrom, hpending⟩ := exec_frame ht
  refine ⟨hrom, hpending, ?_⟩
  obtain ⟨_, _, hrun⟩ | ⟨_, _, _, hrun⟩ | ⟨m, thr, modulation, th, rfl, hmod, hth, hle, hrun⟩ |
    ⟨_, _, _, _, _, hrun⟩ | ⟨_, _, _, _, _, hrun⟩ | ⟨_, _, _, _, _, hrun⟩ := exec_cases i s
  all_goals obtain rfl := Host.Outcome.next.inj (hrun.symm.trans ht)
  case inr.inr.inl =>
    exact .inr ⟨m, thr, rfl, rfl, modCode_toNat_of_modulationOperand hmod, hth, hle, rfl, rfl, rfl, rfl⟩
  all_goals exact .inl ⟨rfl, rfl, rfl⟩

end Sys2Proof.Machine

/-! ## Runs

What every step keeps of the ROM, the waiting inputs and FAULT, carried along a run. -/

namespace Sys2Proof.Machine

theorem step_oqpskChip {s t : State} (ht : step s = .next t) : t.oqpskChip = s.oqpskChip := by
  obtain ⟨-, hs⟩ | ⟨rest, -, hs⟩ | ⟨tx, rest, -, -, hs⟩ | ⟨tx, rest, e, -, -, -, hs⟩ | ⟨tx, rest, i, -, -, -, hs⟩ :=
    step_cases s
  all_goals rw [hs] at ht
  case inr.inr.inr.inr =>
    obtain ⟨hrom, -⟩ := exec_frame ht
    exact hrom
  all_goals
    cases ht
    rfl

/-- A step takes at most the first waiting input (log 2). -/
theorem step_pending {s t : State} (ht : step s = .next t) : t.pending = s.pending.tail := by
  obtain ⟨hp, hs⟩ | ⟨rest, hp, hs⟩ | ⟨tx, rest, hp, -, hs⟩ | ⟨tx, rest, e, hp, -, -, hs⟩ |
    ⟨tx, rest, i, hp, -, -, hs⟩ := step_cases s
  all_goals rw [hs] at ht
  case inr.inr.inr.inr =>
    obtain ⟨-, hpending⟩ := exec_frame ht
    rw [hpending, setPending_pending, hp, List.tail_cons]
  all_goals
    cases ht
    simp [hp]

theorem step_keeps_noReset {s t : State} (h : HostInput.reset ∉ s.pending) (ht : step s = .next t) :
    HostInput.reset ∉ t.pending := by
  rw [step_pending ht]
  exact fun hmem => h (List.mem_of_mem_tail hmem)

/-- FAULT is sticky: only a reset clears it (10_state.md R34). -/
theorem step_keeps_fault {s t : State} (h : HostInput.reset ∉ s.pending) (hf : s.fault = true)
    (ht : step s = .next t) : t.fault = true := by
  obtain ⟨-, hs⟩ | ⟨rest, hp, -⟩ | ⟨tx, rest, -, -, hs⟩ | ⟨tx, rest, e, -, hclear, -, -⟩ |
    ⟨tx, rest, i, -, hclear, -, -⟩ := step_cases s
  · cases hs.symm.trans ht
    exact hf
  · simp [hp] at h
  · cases hs.symm.trans ht
    exact hf
  · simp [hf] at hclear
  · simp [hf] at hclear

/-- `run_answers_and_keeps` for the one state the run answers. -/
theorem run_keeps {P : State → Prop} (keeps : ∀ {s t : State}, P s → step s = .next t → P t) {k : ℕ} {s t : State}
    (hs : P s) (ht : Host.Core.run Sys2Proof.core k s = .next t) : P t := by
  obtain ⟨u, hu, hP⟩ := run_answers_and_keeps keeps k hs
  obtain rfl := Host.Outcome.next.inj (hu.symm.trans ht)
  exact hP

/-- A run of `j + k` steps is a run of `k` steps from where the first `j` end. -/
theorem run_add {j k : ℕ} {s t : State} (ht : Host.Core.run Sys2Proof.core j s = .next t) :
    Host.Core.run Sys2Proof.core (j + k) s = Host.Core.run Sys2Proof.core k t := by
  induction j generalizing s with
  | zero =>
    obtain rfl := Host.Outcome.next.inj ((run_none s).symm.trans ht)
    rw [Nat.zero_add]
  | succ j ih =>
    obtain ⟨u, hu⟩ := step_answers s
    rw [run_succ_of_next hu] at ht
    rw [Nat.succ_add, run_succ_of_next hu, ih ht]

/-- With no reset to come, a fault at the start is still recorded at the end. -/
theorem fault_eq_false_of_runsClean {k : ℕ} {s : State} (h : HostInput.reset ∉ s.pending) (hclean : runsClean k s) :
    s.fault = false := by
  obtain ⟨t, ht, hend⟩ := hclean
  by_contra hfault
  obtain ⟨-, hstuck⟩ := run_keeps (P := fun u => HostInput.reset ∉ u.pending ∧ u.fault = true)
    (fun ⟨hreset, hf⟩ hu => ⟨step_keeps_noReset hreset hu, step_keeps_fault hreset hf hu⟩)
    ⟨h, by simpa using hfault⟩ ht
  simp [endsCorrectly, hstuck] at hend

/-- Settles O10: the rest of the run starts where the shorter run ends, and ends clean, so no fault is recorded there. -/
theorem cleanEndMeansNoFaultOnTheWay : Obligations.CleanEndMeansNoFaultOnTheWay := by
  unfold Obligations.CleanEndMeansNoFaultOnTheWay
  intro s k h hclean j hj
  obtain ⟨u, hu, hreset⟩ := run_answers_and_keeps (P := fun v => HostInput.reset ∉ v.pending) step_keeps_noReset j h
  have hrest : runsClean (k - j) u := by
    obtain ⟨t, ht, hend⟩ := hclean
    rw [← Nat.add_sub_of_le hj, run_add hu] at ht
    exact ⟨t, ht, hend⟩
  exact ⟨u, hu, fault_eq_false_of_runsClean hreset hrest⟩

/-- Settles O24: each step leaves the open entries as they are, and the other entries are fixed by the ROM's definition. -/
theorem codebookRomNeverChanges : Obligations.CodebookRomNeverChanges := by
  unfold Obligations.CodebookRomNeverChanges
  intro s t k ht
  have hrom : t.oqpskChip = s.oqpskChip :=
    run_keeps (P := fun u => u.oqpskChip = s.oqpskChip) (fun h hu => (step_oqpskChip hu).trans h) rfl ht
  exact ⟨hrom, fun m i => by rw [hrom]⟩

end Sys2Proof.Machine

/-! ## Reset

The values a reset leaves, and the invariant of the reset state. -/

namespace Sys2Proof.Machine

/-- A run starts from what a reset leaves of it (10_state.md R38). -/
theorem reset_eq_hostReset : State.reset = hostReset State.reset := rfl

theorem status_hostReset (s : State) : status (hostReset s) = 0 := by simp [status, flagWord, modCode]

theorem resetValues_hostReset (s : State) : ResetValues (hostReset s) :=
  ⟨rfl, rfl, rfl, rfl, rfl, rfl, rfl, status_hostReset s⟩

theorem step_of_reset {s : State} {rest : List HostInput} (h : s.pending = .reset :: rest) :
    step s = .next (hostReset (setPending rest s)) := by
  simp only [step, takeNext, h, takeInput]

/-- Settles O11: both states are states that `hostReset` answers. -/
theorem resetLeavesTheValuesOfTheTable : Obligations.ResetLeavesTheValuesOfTheTable := by
  unfold Obligations.ResetLeavesTheValuesOfTheTable
  refine ⟨reset_eq_hostReset ▸ resetValues_hostReset State.reset, fun s rest h => ?_⟩
  exact ⟨_, step_of_reset h, resetValues_hostReset _, rfl, fun _ _ => rfl⟩

/-- Settles O43: every arrangement of the free table is distinct, which is all that `invariant_hostReset` needs. -/
theorem resetSatisfiesTheInvariant : Obligations.ResetSatisfiesTheInvariant := by
  unfold Obligations.ResetSatisfiesTheInvariant
  rw [reset_eq_hostReset]
  exact invariant_hostReset (oqpskTableOf_distinct Config.oqpskArrangement)

end Sys2Proof.Machine

/-! ## STATUS

The view of 10_state.md R36, bit by bit and then field by field. -/

namespace Sys2Proof.Machine

theorem flagWord_getLsbD (b : Bool) (k : ℕ) : (flagWord b).getLsbD k = (decide (k = 0) && b) := by
  cases k <;> simp [flagWord]

/-- Bit `k` of STATUS is a bit of the field at or below it; past that field's width, in a reserved range, the bit is 0. -/
theorem status_getLsbD (s : State) {k : ℕ} (hk : k < 32) :
    (status s).getLsbD k =
      if k = 31 then s.fault
      else if 16 ≤ k then s.cause.getLsbD (k - 16)
      else if 8 ≤ k then s.cfgThresh.getLsbD (k - 8)
      else if 2 ≤ k then (modCode s.cfgMod).getLsbD (k - 2)
      else if k = 1 then s.cfgValid
      else s.hit := by
  simp only [status, BitVec.getLsbD_or, BitVec.getLsbD_shiftLeft, BitVec.getLsbD_setWidth, flagWord_getLsbD, hk]
  interval_cases k <;> simp

/-- Settles O34, from `status_getLsbD`: a one-bit flag at its place, a wider field or a reserved range at each of its bits. -/
theorem statusShowsEveryField : Obligations.StatusShowsEveryField := by
  unfold Obligations.StatusShowsEveryField
  intro s
  refine ⟨rfl, ?_⟩
  simp only [response]
  refine ⟨?hit, ?cfgValid, ?cfgMod, ?reserved7to3, ?cfgThresh, ?reserved15to14, ?cause, ?reserved30to20, ?fault⟩
  case hit | cfgValid | fault =>
    rw [status_getLsbD s (by decide)]
    rfl
  all_goals
    refine BitVec.eq_of_getLsbD_eq fun i hi => ?_
    rw [BitVec.getLsbD_extractLsb', status_getLsbD s (by omega)]
    simp (disch := omega) [hi, if_neg, if_pos]

end Sys2Proof.Machine

/-! ## HIT

The scan's distance against every entry of the codebook, and the HIT of a command and of a transaction. -/

namespace Sys2Proof.Machine

/-- Over 32 bits the statements' count of differing positions is the model's distance (40_hamming_distance.md R66). -/
theorem hammingDistance_eq_differingBits (x y : Word) : hammingDistance x y = differingBits x y := by
  rw [hammingDistance, popcount_eq_card, differingBits]
  simp

theorem entryDistance_eq_differingBits (rom : Vector Word 15) (m : Modulation) (c : Word) (i : Fin (nsym m)) :
    entryDistance rom m c i = differingBits c (romRead rom m i).chip :=
  hammingDistance_eq_differingBits _ _

/-- One turn of the scan brings the best within `d` exactly when it was so or the new entry is. -/
theorem keepNearer_dist_le_iff (rom : Vector Word 15) (m : Modulation) (c : Word) (best : Best m) (i : Fin (nsym m))
    (d : ℕ) : (keepNearer rom m c best i).dist ≤ d ↔ best.dist ≤ d ∨ entryDistance rom m c i ≤ d := by
  obtain ⟨hle, h⟩ | ⟨hlt, h⟩ := keepNearer_cases rom m c best i
  · rw [h]
    omega
  · rw [h]
    dsimp only
    omega

theorem foldl_keepNearer_dist_le_iff (rom : Vector Word 15) (m : Modulation) (c : Word) (entries : List (Fin (nsym m)))
    (best : Best m) (d : ℕ) :
    (entries.foldl (keepNearer rom m c) best).dist ≤ d ↔ best.dist ≤ d ∨ ∃ i ∈ entries, entryDistance rom m c i ≤ d := by
  induction entries generalizing best with
  | nil => simp
  | cons i rest ih =>
    simp only [List.foldl_cons, ih, keepNearer_dist_le_iff, or_assoc, List.exists_mem_cons_iff]

theorem finRange_nsym (m : Modulation) :
    List.finRange (nsym m) = ⟨0, nsym_pos m⟩ :: (List.finRange (nsym m)).tail := by
  cases m <;> rfl

/-- The scan's distance is within `d` exactly when some entry is (41_chip_codec.md R74). -/
theorem nearest_dist_le_iff (rom : Vector Word 15) (m : Modulation) (c : Word) (d : ℕ) :
    (nearest rom m c).dist ≤ d ↔ ∃ i, entryDistance rom m c i ≤ d := by
  calc (nearest rom m c).dist ≤ d
      ↔ ∃ i ∈ List.finRange (nsym m), entryDistance rom m c i ≤ d := by
        rw [nearest, foldl_keepNearer_dist_le_iff, finRange_nsym, List.exists_mem_cons_iff, List.tail_cons]
        rfl
    _ ↔ ∃ i, entryDistance rom m c i ≤ d := by simp

/-- Some codebook entry is within the configured threshold of `c` (41_chip_codec.md R76). -/
def EntryWithinThreshold (s : State) (c : Word) : Prop :=
  ∃ i, differingBits c (romRead s.oqpskChip s.cfgMod i).chip ≤ s.cfgThresh.toNat

theorem nearest_within_iff (s : State) (c : Word) :
    (nearest s.oqpskChip s.cfgMod c).dist ≤ s.cfgThresh.toNat ↔ EntryWithinThreshold s c := by
  simp only [nearest_dist_le_iff, entryDistance_eq_differingBits, EntryWithinThreshold]

/-- A command that faults leaves HIT (60_exceptions.md R95). -/
theorem exec_hit_of_fault {i : Instr} {s t : State} (hs : s.fault = false) (ht : exec i s = .next t)
    (hf : t.fault = true) : t.hit = s.hit := by
  obtain ⟨_, _, hrun⟩ | ⟨_, _, _, hrun⟩ | ⟨_, _, _, _, _, _, _, _, hrun⟩ | ⟨_, _, _, _, _, hrun⟩ |
    ⟨_, _, _, _, _, hrun⟩ | ⟨_, _, _, _, _, hrun⟩ := exec_cases i s
  all_goals obtain rfl := Host.Outcome.next.inj (hrun.symm.trans ht)
  case inl => rfl
  all_goals simp [hs] at hf

/-- Of the commands that complete only a DEC with an entry within the threshold sets HIT (10_state.md R33). -/
theorem exec_hit_iff {i : Instr} {s t : State} (ht : exec i s = .next t) (hf : t.fault = false) :
    t.hit = true ↔ ∃ c b, i = .dec c b ∧ EntryWithinThreshold s c := by
  obtain ⟨_, _, hrun⟩ | ⟨_, _, rfl, hrun⟩ | ⟨_, _, _, _, rfl, _, _, _, hrun⟩ | ⟨_, _, _, rfl, _, hrun⟩ |
    ⟨c, b, rfl, _, hhit, hrun⟩ | ⟨c, b, rfl, _, hmiss, hrun⟩ := exec_cases i s
  all_goals obtain rfl := Host.Outcome.next.inj (hrun.symm.trans ht)
  · simp at hf
  · simp
  · simp
  · simp
  · exact iff_of_true rfl ⟨c, b, rfl, (nearest_within_iff s c).mp hhit⟩
  · simpa [← nearest_within_iff] using hmiss

/-- Settles O35: an ignored or illegal transaction shows FAULT, and for a command `exec` decides. -/
theorem hitTellsADecodeHit : Obligations.HitTellsADecodeHit := by
  unfold Obligations.HitTellsADecodeHit
  intro s t tx rest hp ht
  obtain ⟨hnone, -⟩ | ⟨_, hreset, -⟩ | ⟨_, _, -, hfault, hs⟩ | ⟨_, rest', e, -, -, -, hs⟩ |
    ⟨tx', rest', i, hp', hclear, hdec, hs⟩ := step_cases s
  · simp [hp] at hnone
  · simp [hp] at hreset
  · obtain rfl := Host.Outcome.next.inj (hs.symm.trans ht)
    exact ⟨fun _ => rfl, by simp [hfault]⟩
  · obtain rfl := Host.Outcome.next.inj (hs.symm.trans ht)
    exact ⟨fun _ => rfl, by simp⟩
  · obtain ⟨⟨rfl⟩, rfl⟩ := List.cons.inj (hp.symm.trans hp')
    have hrun : exec i (setPending rest s) = .next t := hs.symm.trans ht
    refine ⟨exec_hit_of_fault (s := setPending rest s) hclear hrun, fun hf => ?_⟩
    simpa [hdec, EntryWithinThreshold] using exec_hit_iff hrun hf

end Sys2Proof.Machine

/-! ## Byte order

Reversing the four bytes of a word permutes its bit positions, so it changes no count of bits (20_memory.md R41). -/

namespace Sys2Proof.Machine

/-- The position a bit comes from when the four bytes are reversed: byte `b` becomes byte `3 - b`, its bits in their order. -/
def mirroredPosition (k : ℕ) : ℕ := 8 * (3 - k / 8) + k % 8

theorem byteSwap_getLsbD (v : Word) {k : ℕ} (hk : k < 32) :
    (byteSwap v).getLsbD k = v.getLsbD (mirroredPosition k) := by
  simp only [byteSwap, BitVec.getLsbD_append, BitVec.getLsbD_extractLsb', mirroredPosition]
  interval_cases k <;> simp

theorem mirroredPosition_perm : ((List.range 32).map mirroredPosition).Perm (List.range 32) := by decide

theorem popcount_byteSwap (v : Word) : popcount (byteSwap v) = popcount v := by
  calc popcount (byteSwap v)
      = (List.range 32).countP fun k => v.getLsbD (mirroredPosition k) :=
        List.countP_congr fun k hk => by rw [byteSwap_getLsbD v (List.mem_range.mp hk)]
    _ = ((List.range 32).map mirroredPosition).countP fun k => v.getLsbD k := (List.countP_map ..).symm
    _ = popcount v := mirroredPosition_perm.countP_eq _

theorem byteSwap_xor (x y : Word) : byteSwap x ^^^ byteSwap y = byteSwap (x ^^^ y) := by
  refine BitVec.eq_of_getLsbD_eq fun k hk => ?_
  simp only [BitVec.getLsbD_xor, byteSwap_getLsbD _ hk]

/-- Settles O19: the difference of the reversed words is the reversed difference, which has as many ones. -/
theorem distanceIgnoresByteOrder : Obligations.DistanceIgnoresByteOrder := by
  unfold Obligations.DistanceIgnoresByteOrder
  intro x y
  rw [hammingDistance, byteSwap_xor, popcount_byteSwap, hammingDistance]

end Sys2Proof.Machine

/-! ## The scan of DEC

Which entry the scan ends with: the first of the nearest ones (41_chip_codec.md R74, R75). -/

namespace Sys2Proof.Machine

/-- What the scan knows after the entries `seen`: `best` is one of them, none is nearer, and every earlier one is farther. -/
structure FirstNearestOf (rom : Vector Word 15) (m : Modulation) (c : Word) (seen : List (Fin (nsym m))) (best : Best m) :
    Prop where
  mem : best.idx ∈ seen
  dist_eq : best.dist = entryDistance rom m c best.idx
  dist_le : ∀ j ∈ seen, best.dist ≤ entryDistance rom m c j
  dist_lt : ∀ j ∈ seen, j < best.idx → best.dist < entryDistance rom m c j

theorem firstNearestOf_firstEntry (rom : Vector Word 15) (m : Modulation) (c : Word) :
    FirstNearestOf rom m c [⟨0, nsym_pos m⟩] (firstEntry rom m c) where
  mem := List.mem_singleton_self _
  dist_eq := rfl
  dist_le := by simp [firstEntry]
  dist_lt := by simp [firstEntry]

/-- One turn of the loop of R74. An equally near entry does not replace the best, which stands before it. -/
theorem firstNearestOf_keepNearer {rom : Vector Word 15} {m : Modulation} {c : Word} {seen : List (Fin (nsym m))}
    {best : Best m} {i : Fin (nsym m)} (h : FirstNearestOf rom m c seen best) (hi : ∀ j ∈ seen, j < i) :
    FirstNearestOf rom m c (seen ++ [i]) (keepNearer rom m c best i) := by
  obtain ⟨hmem, heq, hle, hlt⟩ := h
  obtain ⟨hfar, hkeep⟩ | ⟨hnear, hkeep⟩ := keepNearer_cases rom m c best i
  all_goals rw [hkeep]
  · have hbefore : ¬ i < best.idx := (hi _ hmem).asymm
    exact ⟨by simp [hmem], heq, by simpa [or_imp, forall_and] using ⟨hle, hfar⟩,
      by simpa [or_imp, forall_and, hbefore] using hlt⟩
  · have hfarther (j) (hj : j ∈ seen) : entryDistance rom m c i < entryDistance rom m c j := hnear.trans_le (hle j hj)
    exact ⟨by simp, rfl, by simpa [or_imp, forall_and] using fun j hj => (hfarther j hj).le,
      by simpa [or_imp, forall_and] using fun j hj _ => hfarther j hj⟩

theorem firstNearestOf_foldl {rom : Vector Word 15} {m : Modulation} {c : Word} {seen rest : List (Fin (nsym m))}
    {best : Best m} (hsorted : (seen ++ rest).Pairwise (· < ·)) (h : FirstNearestOf rom m c seen best) :
    FirstNearestOf rom m c (seen ++ rest) (rest.foldl (keepNearer rom m c) best) := by
  induction rest generalizing seen best with
  | nil => simpa using h
  | cons i rest ih =>
    obtain ⟨-, -, hbefore⟩ := List.pairwise_append.mp hsorted
    rw [List.append_cons] at hsorted ⊢
    exact ih hsorted (firstNearestOf_keepNearer h fun j hj => hbefore j hj i List.mem_cons_self)

theorem firstNearestOf_nearest (rom : Vector Word 15) (m : Modulation) (c : Word) :
    FirstNearestOf rom m c (List.finRange (nsym m)) (nearest rom m c) := by
  have hsorted : (List.finRange (nsym m)).Pairwise (· < ·) := List.pairwise_lt_finRange _
  rw [finRange_nsym] at hsorted ⊢
  exact firstNearestOf_foldl (seen := [_]) hsorted (firstNearestOf_firstEntry rom m c)

theorem nearest_dist_eq (rom : Vector Word 15) (m : Modulation) (c : Word) :
    (nearest rom m c).dist = differingBits c (romRead rom m (nearest rom m c).idx).chip := by
  rw [(firstNearestOf_nearest rom m c).dist_eq, entryDistance_eq_differingBits]

theorem nearest_isFirstNearest (rom : Vector Word 15) (m : Modulation) (c : Word) :
    IsFirstNearest rom m c (nearest rom m c).idx := by
  obtain ⟨-, -, hle, hlt⟩ := firstNearestOf_nearest rom m c
  intro j
  rw [← nearest_dist_eq, ← entryDistance_eq_differingBits]
  exact ⟨hle j (List.mem_finRange j), hlt j (List.mem_finRange j)⟩

end Sys2Proof.Machine

/-! ## A CFG and the DEC after it

The step of a legal command, and the outcomes of a CFG that passes its checks and of a DEC of a configured block. -/

namespace Sys2Proof.Machine

theorem decode_encode (i : Instr) : decode (encode i) = .ok i := by
  cases i <;> simp [decode, encode, reservedField, opField]

/-- An unfaulted block whose next input spells a command runs it (60_exceptions.md R96). -/
theorem step_of_encode {s : State} {i : Instr} {rest : List HostInput} (hp : s.pending = .transact (encode i) :: rest)
    (hf : s.fault = false) : step s = exec i (setPending rest s) := by
  simp only [step, takeNext, hp, takeInput, transact, setPending_fault, hf, decode_encode, Bool.false_eq_true, if_false]

theorem modulationOperand_modCode (m : Modulation) :
    modulationOperand (BitVec.ofNat 32 (modCode m).toNat) = some m := by
  cases m <;> rfl

theorem exec_cfg_of_legal {m : Modulation} {t : Word} (ht : t.toNat ≤ cps m) (s : State) :
    ∃ th : BitVec 6, th.toNat = t.toNat
      ∧ exec (.cfg (BitVec.ofNat 32 (modCode m).toNat) t) s = .next (writeResult 0 false (configure m th s)) := by
  obtain ⟨hgt, -⟩ | ⟨-, th, hop, hth⟩ := thresholdOperand_cases m t
  · omega
  · exact ⟨th, hth, by simp only [exec, execCfg, modulationOperand_modCode, hop]⟩

theorem exec_dec_of_hit {s : State} {c : Word} (b : Word) (hv : s.cfgValid = true)
    (h : (nearest s.oqpskChip s.cfgMod c).dist ≤ s.cfgThresh.toNat) :
    exec (.dec c b) s =
      .next (writeResult (romRead s.oqpskChip s.cfgMod (nearest s.oqpskChip s.cfgMod c).idx).symbol true s) := by
  simp [exec, execDec, withinThreshold, hv, h]

theorem exec_dec_of_miss {s : State} {c : Word} (b : Word) (hv : s.cfgValid = true)
    (h : s.cfgThresh.toNat < (nearest s.oqpskChip s.cfgMod c).dist) :
    exec (.dec c b) s = .next (writeResult 0 false s) := by
  simp [exec, execDec, withinThreshold, hv, h]

theorem run_one (s : State) : Host.Core.run Sys2Proof.core 1 s = step s := by
  obtain ⟨t, ht⟩ := step_answers s
  exact (run_succ_of_next ht).trans ((run_none t).trans ht.symm)

/-- Settles O22: the CFG leaves the new configuration in the state that the DEC runs in. -/
theorem cfgAppliesToTheVeryNextDec : Obligations.CfgAppliesToTheVeryNextDec := by
  unfold Obligations.CfgAppliesToTheVeryNextDec
  intro s th c b m rest hf hth hp
  obtain ⟨thresh, hthresh, hcfg⟩ := exec_cfg_of_legal hth (setPending (.transact ⟨4, c, b⟩ :: rest) s)
  have hfirst := (step_of_encode (i := .cfg _ th) hp hf).trans hcfg
  set u := writeResult 0 false (configure m thresh (setPending (.transact ⟨4, c, b⟩ :: rest) s))
  have hsecond : step u = exec (.dec c b) (setPending rest u) := step_of_encode (i := .dec c b) rfl hf
  have hrun : Host.Core.run Sys2Proof.core 2 s = exec (.dec c b) (setPending rest u) := by
    rw [run_succ_of_next hfirst, run_one, hsecond]
  have hdist := nearest_dist_eq s.oqpskChip m c
  refine ⟨(nearest s.oqpskChip m c).idx, ?_⟩
  rw [hrun, ← hdist, ← hthresh]
  by_cases hnear : (nearest s.oqpskChip m c).dist ≤ thresh.toNat
  · refine ⟨_, nearest_isFirstNearest _ m c, exec_dec_of_hit b rfl hnear, hf, ?_⟩
    simp [u, hnear, romRead_symbol_toNat]
  · refine ⟨_, nearest_isFirstNearest _ m c, exec_dec_of_miss b rfl (not_le.mp hnear), hf, ?_⟩
    simp [hnear]

end Sys2Proof.Machine

/-! ## Decoder and encoder

The decoder's outcome for every transaction, said once (30_encoding.md R54, R55, R62). -/

namespace Sys2Proof.Machine

theorem reservedField_toNat (cmd : Word) : (reservedField cmd).toNat = cmd.toNat / 16 := by
  simp only [reservedField, BitVec.extractLsb'_toNat, Nat.shiftRight_eq_div_pow]
  omega

theorem opField_toNat (cmd : Word) : (opField cmd).toNat = cmd.toNat % 16 := by
  simp [opField]

/-- The command word of an instruction is its opcode, with the reserved bits 0 (30_encoding.md R55). -/
theorem encode_cmd_toNat (i : Instr) : 1 ≤ (encode i).cmd.toNat ∧ (encode i).cmd.toNat ≤ 4 := by
  cases i <;> simp [encode]

/-- A transaction is the encoding of an instruction, or CMD has a reserved bit set, or OP spells no command. -/
theorem decode_cases (t : Transaction) :
    (∃ i, encode i = t ∧ decode t = .ok i)
      ∨ (16 ≤ t.cmd.toNat ∧ decode t = .error .reservedBits)
      ∨ (t.cmd.toNat < 16 ∧ (t.cmd.toNat = 0 ∨ 5 ≤ t.cmd.toNat) ∧ decode t = .error .reservedOpcode) := by
  obtain ⟨cmd, a, b⟩ := t
  have hcmd (k : ℕ) (h : cmd.toNat = k) : cmd = BitVec.ofNat 32 k := by rw [← h, BitVec.ofNat_toNat, BitVec.setWidth_eq]
  simp only [decode, reservedField_toNat, opField_toNat]
  split
  · next hreserved =>
    split
    · next hop => exact .inl ⟨.hd a b, by rw [hcmd 1 (by omega)]; rfl, rfl⟩
    · next hop => exact .inl ⟨.cfg a b, by rw [hcmd 2 (by omega)]; rfl, rfl⟩
    · next hop => exact .inl ⟨.enc a b, by rw [hcmd 3 (by omega)]; rfl, rfl⟩
    · next hop => exact .inl ⟨.dec a b, by rw [hcmd 4 (by omega)]; rfl, rfl⟩
    · next h1 h2 h3 h4 =>
      simp only [imp_false] at h1 h2 h3 h4
      exact .inr (.inr ⟨by omega, by omega, rfl⟩)
  · exact .inr (.inl ⟨by omega, rfl⟩)

theorem decode_eq_ok_iff {t : Transaction} {i : Instr} : decode t = .ok i ↔ encode i = t := by
  refine ⟨fun h => ?_, fun h => h ▸ decode_encode i⟩
  obtain ⟨j, hj, hd⟩ | ⟨-, hd⟩ | ⟨-, -, hd⟩ := decode_cases t
  · obtain rfl := Except.ok.inj (hd.symm.trans h)
    exact hj
  · cases hd.symm.trans h
  · cases hd.symm.trans h

/-- Settles O1: `decode_encode` is one direction, `decode_cases` gives the other. -/
theorem decodeAndEncodeAreInverse : Obligations.DecodeAndEncodeAreInverse := by
  unfold Obligations.DecodeAndEncodeAreInverse
  exact ⟨fun i _ => decode_encode i, fun t i h => ⟨decode_eq_ok_iff.mp h, by cases i <;> rfl⟩⟩

/-- Settles O3: the four transactions are encodings. -/
theorem writtenWordsDecode : Obligations.WrittenWordsDecode := by
  unfold Obligations.WrittenWordsDecode
  exact ⟨decode_encode (.hd 0xa 0x5), decode_encode (.cfg 0 15), decode_encode (.enc 1 0xdead),
    decode_encode (.dec 0x000009ae 0)⟩

end Sys2Proof.Machine

/-! ## Command words at the step

What a step makes of a command word: the command it runs, or ILLEGAL_COMMAND (60_exceptions.md R96). -/

namespace Sys2Proof.Machine

theorem step_of_transact {s : State} {t : Transaction} {rest : List HostInput} (hp : s.pending = .transact t :: rest) :
    step s = transact t (setPending rest s) := by
  simp only [step, takeNext, hp, takeInput]

theorem transact_of_ok {t : Transaction} {i : Instr} (hd : decode t = .ok i) (s : State) :
    transact t s = if s.fault then .next s else exec i s := by
  simp only [transact, hd]

theorem transact_of_error {t : Transaction} {e : Illegal} (hd : decode t = .error e) (s : State) :
    transact t s = if s.fault then .next s else .next (raiseFault .illegalCommand s) := by
  simp only [transact, hd]

/-- R57, R58: the words that R55 leaves out, written as ranges, are the ones the decoder rejects. -/
theorem decode_error_of_illegal {t : Transaction}
    (h : t.cmd.toNat / 16 ≠ 0 ∨ t.cmd.toNat % 16 = 0 ∨ 5 ≤ t.cmd.toNat % 16) : ∃ e, decode t = .error e := by
  obtain ⟨i, rfl, -⟩ | ⟨-, hd⟩ | ⟨-, -, hd⟩ := decode_cases t
  · have := encode_cmd_toNat i
    omega
  · exact ⟨_, hd⟩
  · exact ⟨_, hd⟩

theorem decode_ok_iff_cmd (t : Transaction) :
    (∃ i, decode t = .ok i) ↔ t.cmd = 1 ∨ t.cmd = 2 ∨ t.cmd = 3 ∨ t.cmd = 4 := by
  simp only [decode_eq_ok_iff]
  constructor
  · rintro ⟨i, rfl⟩
    cases i <;> simp [encode]
  · obtain ⟨cmd, a, b⟩ := t
    rintro (rfl | rfl | rfl | rfl)
    · exact ⟨.hd a b, rfl⟩
    · exact ⟨.cfg a b, rfl⟩
    · exact ⟨.enc a b, rfl⟩
    · exact ⟨.dec a b, rfl⟩

/-- Settles O2: the ranges of CMD are told apart by `decode_cases`, and an unfaulted block records the fault of R94. -/
theorem otherCommandWordsRaiseIllegalCommand : Obligations.OtherCommandWordsRaiseIllegalCommand := by
  unfold Obligations.OtherCommandWordsRaiseIllegalCommand
  refine ⟨decode_ok_iff_cmd, fun t h => ?reserved, fun t hlt h => ?opcode, fun s t rest hp hf h => ?step⟩
  case reserved =>
    obtain ⟨i, rfl, -⟩ | ⟨-, hd⟩ | ⟨hlt, -, -⟩ := decode_cases t
    · have := encode_cmd_toNat i
      omega
    · exact hd
    · omega
  case opcode =>
    obtain ⟨i, rfl, -⟩ | ⟨hge, -⟩ | ⟨-, -, hd⟩ := decode_cases t
    · have := encode_cmd_toNat i
      omega
    · omega
    · exact hd
  case step =>
    obtain ⟨e, hd⟩ := decode_error_of_illegal h
    rw [step_of_transact hp, transact_of_error hd, setPending_fault, hf]
    rfl

/-- The step after `withFetchWord` takes that transaction, in the state as it was before (log 4). -/
theorem step_withFetchWord (s : State) (nbits w : ℕ) :
    step (s.withFetchWord nbits w) = transact (transactionOfBits nbits w) s :=
  step_of_transact rfl

theorem decodeTableWord_eq_some_iff {nbits w : ℕ} {i : Instr} :
    decodeTableWord nbits w = some i ↔ decode (transactionOfBits nbits w) = .ok i := by
  simp only [decodeTableWord]
  split <;> simp_all

/-- Settles O6, from `step_withFetchWord`. -/
theorem fetchedWordRunsNext : Obligations.FetchedWordRunsNext := by
  unfold Obligations.FetchedWordRunsNext
  intro s nbits w i hf hd
  rw [step_withFetchWord, transact_of_ok (decodeTableWord_eq_some_iff.mp hd), hf]
  rfl

/-- Two commands with the same meaning have the same step (60_exceptions.md R96). -/
theorem step_transact_congr {i j : Instr} (h : ∀ s, exec i s = exec j s) (s : State) (rest : List HostInput) :
    step { s with pending := .transact (encode i) :: rest } = step { s with pending := .transact (encode j) :: rest } := by
  rw [step_of_transact rfl, step_of_transact rfl, transact_of_ok (decode_encode i), transact_of_ok (decode_encode j), h]
  rfl

end Sys2Proof.Machine

/-! ## Assembler forms

What `assemble` answers, in terms of a form's three words (30_encoding.md R63 to R65). -/

namespace Sys2Proof.Machine

/-- A form is accepted exactly when its three words fit (R63): its numbers are its words, and the other words are small. -/
theorem wellFormed_iff (f : AsmForm) :
    f.wellFormed = true ↔ (formWords f).1 < 2 ^ 32 ∧ (formWords f).2.1 < 2 ^ 32 ∧ (formWords f).2.2 < 2 ^ 32 := by
  cases f with
  | cfgNamed m t =>
    have hname : modulationNumber m < 2 ^ 32 := by cases m <;> decide
    simpa [AsmForm.wellFormed, formWords, fitsWord] using fun _ => hname
  | hd | cfg | enc | dec | raw => simp [AsmForm.wellFormed, formWords, fitsWord, and_assoc]

theorem wellFormed_of_assemble {f : AsmForm} {t : Transaction} (h : assemble f = some t) : f.wellFormed = true := by
  by_contra hf
  simp [assemble, hf] at h

theorem assemble_eq_none_iff (f : AsmForm) :
    assemble f = none ↔ 2 ^ 32 ≤ (formWords f).1 ∨ 2 ^ 32 ≤ (formWords f).2.1 ∨ 2 ^ 32 ≤ (formWords f).2.2 := by
  have hnone : assemble f = none ↔ ¬ f.wellFormed = true := by simp [assemble]
  rw [hnone, wellFormed_iff]
  omega

/-- A form whose three words are words of the machine assembles to them. -/
theorem assemble_of_formWords {f : AsmForm} {w a b : Word} (h : formWords f = (w.toNat, a.toNat, b.toNat)) :
    assemble f = some ⟨w, a, b⟩ := by
  have hf : f.wellFormed = true := by
    rw [wellFormed_iff, h]
    exact ⟨w.isLt, a.isLt, b.isLt⟩
  simp [assemble, hf, h]

/-- Settles O47, from the words of each form. -/
theorem assemblerFormsMeanTheirWords : Obligations.AssemblerFormsMeanTheirWords := by
  unfold Obligations.AssemblerFormsMeanTheirWords
  intro x y z
  refine ⟨?hd, ?bpsk, ?oqpsk, ?cfg, ?enc, ?dec, ?raw, assemble_eq_none_iff⟩
  all_goals exact assemble_of_formWords rfl

/-- Settles O4: the meanings of ENC and DEC do not read OPB, and their forms have 0 there. -/
theorem encAndDecIgnoreOpb : Obligations.EncAndDecIgnoreOpb := by
  unfold Obligations.EncAndDecIgnoreOpb
  refine ⟨fun s rest cmd a b b' hcmd => ?_, fun x => ⟨assemble_of_formWords rfl, assemble_of_formWords rfl⟩⟩
  obtain rfl | rfl := hcmd
  · exact step_transact_congr (i := .enc a b) (j := .enc a b') (fun _ => rfl) s rest
  · exact step_transact_congr (i := .dec a b) (j := .dec a b') (fun _ => rfl) s rest

/-- The form printed for a transaction has its three words: of a command by R55, and of RAW by R63. -/
theorem formWords_disassemble (t : Transaction) :
    formWords (disassemble t) = (t.cmd.toNat, t.opa.toNat, t.opb.toNat) := by
  obtain ⟨i, rfl, hd⟩ | ⟨-, hd⟩ | ⟨-, -, hd⟩ := decode_cases t
  · simp only [disassemble, hd]
    cases i with
    | hd x y => rfl
    | cfg m th =>
      cases hm : modulationOperand m with
      | none => simp [hm, formWords, encode]
      | some modulation => simp [hm, formWords, encode, modulationNumber, modCode_toNat_of_modulationOperand hm]
    | enc s opb => by_cases h : opb = 0 <;> simp only [h, if_true, if_false] <;> rfl
    | dec c opb => by_cases h : opb = 0 <;> simp only [h, if_true, if_false] <;> rfl
  · simp only [disassemble, hd, formWords]
  · simp only [disassemble, hd, formWords]

theorem assemble_disassemble (t : Transaction) : assemble (disassemble t) = some t :=
  assemble_of_formWords (formWords_disassemble t)

/-- Settles O45, from `assemble_disassemble`. -/
theorem assemblerUndoesDisassembler : Obligations.AssemblerUndoesDisassembler := by
  unfold Obligations.AssemblerUndoesDisassembler
  exact fun t => ⟨assemble_disassemble t, fun e hd => by simp only [disassemble, hd]⟩

end Sys2Proof.Machine

/-! ## Numbers as text

The eight hex digits of a printed number read back as the number (30_encoding.md R63, R65; log 6). -/

namespace Sys2Proof.Machine

theorem digitValue_hexDigit {d : ℕ} (h : d < 16) : digitValue (hexDigit d) = some d := by
  interval_cases d <;> decide

/-- `k` printed digits extend the digits read before them by the low `k` digits of the number. -/
theorem readDigits_hexDigits (k n acc : ℕ) : readDigits 16 acc (hexDigits k n) = some (acc * 16 ^ k + n % 16 ^ k) := by
  induction k generalizing acc with
  | zero => simp [hexDigits, readDigits, Nat.mod_one]
  | succ k ih =>
    have hdigit : n / 16 ^ k % 16 < 16 := Nat.mod_lt _ (by decide)
    have hsplit : n % 16 ^ (k + 1) = n % 16 ^ k + 16 ^ k * (n / 16 ^ k % 16) := by rw [pow_succ, Nat.mod_mul]
    simp only [hexDigits, readDigits, digitValue_hexDigit hdigit, hdigit, if_true, ih, hsplit]
    congr 1
    ring

theorem readNumber_hex {digits : List Char} (h : digits ≠ []) :
    readNumber ('0' :: 'x' :: digits) = readDigits 16 0 digits := by
  cases digits with
  | nil => exact absurd rfl h
  | cons d rest => simp [readNumber]

theorem readNumber_printNumber {n : ℕ} (h : fitsWord n = true) : readNumber (printNumber n) = some n := by
  have hn : n < 16 ^ 8 := by simpa [fitsWord] using h
  rw [printNumber, readNumber_hex (by simp [hexDigits]), readDigits_hexDigits, Nat.mod_eq_of_lt hn]
  simp

end Sys2Proof.Machine

/-! ## Pieces of a source line

A line printed from plain pieces, one blank after the mnemonic and `, ` between the operands, is taken apart into the same
pieces (30_encoding.md R63; log 5). -/

namespace Sys2Proof.Machine

/-- A character that ends no piece of a line: no blank, comma or semicolon. -/
def isPlain (c : Char) : Bool := !isBlank c && c != ',' && c != ';'

/-- A mnemonic or an operand, as it is printed: a text that is read as one piece. -/
structure IsPiece (p : List Char) : Prop where
  ne_nil : p ≠ []
  unblank : ∀ c ∈ p, isBlank c = false
  ne_comma : ∀ c ∈ p, c ≠ ','
  ne_semicolon : ∀ c ∈ p, c ≠ ';'

theorem isPiece_of_isPlain {p : List Char} (hne : p ≠ []) (h : ∀ c ∈ p, isPlain c = true) : IsPiece p := by
  simp only [isPlain, Bool.and_eq_true, Bool.not_eq_true', bne_iff_ne, imp_and, forall_and] at h
  obtain ⟨⟨hblank, hcomma⟩, hsemicolon⟩ := h
  exact ⟨hne, hblank, hcomma, hsemicolon⟩

/-- The operands of a line as they are printed. -/
def joinOperands (pieces : List (List Char)) : List Char := [',', ' '].intercalate pieces

theorem joinOperands_singleton (p : List Char) : joinOperands [p] = p := by simp [joinOperands]

theorem joinOperands_cons_cons (p q : List Char) (rest : List (List Char)) :
    joinOperands (p :: q :: rest) = p ++ ',' :: ' ' :: joinOperands (q :: rest) := by
  simp [joinOperands, List.intercalate]

/-- The text ends in a character that `trimBlanks` keeps. -/
def EndsUnblank (cs : List Char) : Prop := ∃ init c, cs = init ++ [c] ∧ isBlank c = false

theorem EndsUnblank.append {cs : List Char} (h : EndsUnblank cs) (before : List Char) : EndsUnblank (before ++ cs) := by
  obtain ⟨init, c, rfl, hc⟩ := h
  exact ⟨before ++ init, c, (List.append_assoc ..).symm, hc⟩

theorem IsPiece.endsUnblank {p : List Char} (h : IsPiece p) : EndsUnblank p :=
  ⟨p.dropLast, p.getLast h.ne_nil, (List.dropLast_append_getLast h.ne_nil).symm, h.unblank _ (List.getLast_mem h.ne_nil)⟩

theorem trimBlanks_eq_rdropWhile (cs : List Char) : trimBlanks cs = (cs.dropWhile isBlank).rdropWhile isBlank := rfl

theorem trimBlanks_eq_self {c : Char} {cs : List Char} (hc : isBlank c = false) (h : EndsUnblank (c :: cs)) :
    trimBlanks (c :: cs) = c :: cs := by
  obtain ⟨init, last, hcs, hlast⟩ := h
  rw [trimBlanks_eq_rdropWhile, List.dropWhile_cons_of_neg (by simp [hc]), hcs,
    List.rdropWhile_concat_neg _ _ _ (by simp [hlast])]

theorem trimBlanks_concat_blank {c : Char} (cs : List Char) (hc : isBlank c = false) :
    trimBlanks (c :: cs ++ [' ']) = trimBlanks (c :: cs) := by
  rw [trimBlanks_eq_rdropWhile, trimBlanks_eq_rdropWhile, List.cons_append, List.dropWhile_cons_of_neg (by simp [hc]),
    List.dropWhile_cons_of_neg (by simp [hc]), ← List.cons_append, List.rdropWhile_concat_pos _ _ _ (by decide)]

theorem trimBlanks_blank_cons (cs : List Char) : trimBlanks (' ' :: cs) = trimBlanks cs := rfl

theorem trimBlanks_piece {p : List Char} (h : IsPiece p) : trimBlanks p = p := by
  cases p with
  | nil => rfl
  | cons c cs => exact trimBlanks_eq_self (h.unblank c List.mem_cons_self) h.endsUnblank

theorem splitOperands_cons {c : Char} {cs piece : List Char} {pieces : List (List Char)} (hc : c ≠ ',')
    (h : splitOperands cs = piece :: pieces) : splitOperands (c :: cs) = (c :: piece) :: pieces := by
  simp [splitOperands, h]

theorem splitOperands_piece {p : List Char} (hp : ∀ c ∈ p, c ≠ ',') : splitOperands p = [p] := by
  induction p with
  | nil => rfl
  | cons c cs ih =>
    obtain ⟨hc, hcs⟩ := List.forall_mem_cons.mp hp
    exact splitOperands_cons hc (ih hcs)

theorem splitOperands_piece_comma {p : List Char} (hp : ∀ c ∈ p, c ≠ ',') (rest : List Char) :
    splitOperands (p ++ ',' :: rest) = p :: splitOperands rest := by
  induction p with
  | nil => rfl
  | cons c cs ih =>
    obtain ⟨hc, hcs⟩ := List.forall_mem_cons.mp hp
    exact splitOperands_cons hc (ih hcs)

/-- The blank before each operand is the one after the mnemonic or after a comma. -/
theorem splitOperands_joinOperands {pieces : List (List Char)} (hne : pieces ≠ []) (hp : ∀ p ∈ pieces, IsPiece p) :
    (splitOperands (' ' :: joinOperands pieces)).map trimBlanks = pieces := by
  induction pieces with
  | nil => exact absurd rfl hne
  | cons p rest ih =>
    obtain ⟨hpiece, hrest⟩ := List.forall_mem_cons.mp hp
    have htrim : trimBlanks (' ' :: p) = p := (trimBlanks_blank_cons p).trans (trimBlanks_piece hpiece)
    have hcomma : ∀ c ∈ ' ' :: p, c ≠ ',' := List.forall_mem_cons.mpr ⟨by decide, hpiece.ne_comma⟩
    cases rest with
    | nil => rw [joinOperands_singleton, splitOperands_piece hcomma, List.map_singleton, htrim]
    | cons q rest =>
      rw [joinOperands_cons_cons, ← List.cons_append, splitOperands_piece_comma hcomma,
        List.map_cons, htrim, ih (by simp) hrest]

theorem endsUnblank_joinOperands {pieces : List (List Char)} (hne : pieces ≠ []) (hp : ∀ p ∈ pieces, IsPiece p) :
    EndsUnblank (joinOperands pieces) := by
  induction pieces with
  | nil => exact absurd rfl hne
  | cons p rest ih =>
    obtain ⟨hpiece, hrest⟩ := List.forall_mem_cons.mp hp
    cases rest with
    | nil => exact (joinOperands_singleton p).symm ▸ hpiece.endsUnblank
    | cons q rest =>
      rw [joinOperands_cons_cons]
      exact ((ih (by simp) hrest).append [',', ' ']).append p

theorem ne_semicolon_of_mem_joinOperands {pieces : List (List Char)} (hp : ∀ p ∈ pieces, IsPiece p) :
    ∀ c ∈ joinOperands pieces, c ≠ ';' := by
  induction pieces with
  | nil => simp [joinOperands]
  | cons p rest ih =>
    obtain ⟨hpiece, hrest⟩ := List.forall_mem_cons.mp hp
    cases rest with
    | nil => exact (joinOperands_singleton p).symm ▸ hpiece.ne_semicolon
    | cons q rest =>
      rw [joinOperands_cons_cons]
      simp only [List.forall_mem_append, List.forall_mem_cons]
      exact ⟨hpiece.ne_semicolon, by decide, by decide, ih hrest⟩

theorem beforeComment_append {text : List Char} (h : ∀ c ∈ text, c ≠ ';') (comment : List Char) :
    beforeComment (text ++ ';' :: comment) = text := by
  rw [beforeComment, List.takeWhile_append_of_pos (by simpa using h)]
  simp

/-- A line of one form with a comment is read as its pieces are. -/
theorem readLine_of_pieces {mnemonic : List Char} {pieces : List (List Char)} {f : AsmForm} (hm : IsPiece mnemonic)
    (hne : pieces ≠ []) (hp : ∀ p ∈ pieces, IsPiece p) (hf : readForm mnemonic pieces = some f) (comment : List Char) :
    readLine (mnemonic ++ ' ' :: joinOperands pieces ++ [' '] ++ ';' :: comment) = some [f] := by
  set text := mnemonic ++ ' ' :: joinOperands pieces with htext
  have hcomment : beforeComment (text ++ [' '] ++ ';' :: comment) = text ++ [' '] := by
    refine beforeComment_append ?_ comment
    simp only [htext, List.forall_mem_append, List.forall_mem_cons]
    exact ⟨⟨hm.ne_semicolon, by decide, ne_semicolon_of_mem_joinOperands hp⟩, by decide, by simp⟩
  have htrim : trimBlanks (text ++ [' ']) = text := by
    have hend : EndsUnblank text := ((endsUnblank_joinOperands hne hp).append [' ']).append mnemonic
    cases mnemonic with
    | nil => exact absurd rfl hm.ne_nil
    | cons c cs =>
      have hc := hm.unblank c List.mem_cons_self
      exact (trimBlanks_concat_blank _ hc).trans (trimBlanks_eq_self hc hend)
  have hunblank : ∀ c ∈ mnemonic, (!isBlank c) = true := by simpa using hm.unblank
  have hmnemonic : text.takeWhile (fun c => !isBlank c) = mnemonic := by
    rw [htext, List.takeWhile_append_of_pos hunblank, List.takeWhile_cons_of_neg (by decide), List.append_nil]
  have hoperands : text.dropWhile (fun c => !isBlank c) = ' ' :: joinOperands pieces := by
    rw [htext, List.dropWhile_append_of_pos hunblank, List.dropWhile_cons_of_neg (by decide)]
  have htext_ne : text ≠ [] := by simp [htext]
  simp only [readLine, hcomment, htrim, htext_ne, if_false, hmnemonic, hoperands, splitOperands_joinOperands hne hp, hf,
    Option.map_some]

end Sys2Proof.Machine

/-! ## Listing lines

A printed form as pieces, and the listing line read back (30_encoding.md R65; log 6). -/

namespace Sys2Proof.Machine

/-- The mnemonic that `printForm` prints. -/
def AsmForm.mnemonic : AsmForm → List Char
  | .hd _ _ => ['H', 'D']
  | .cfgNamed _ _ | .cfg _ _ => ['C', 'F', 'G']
  | .enc _ => ['E', 'N', 'C']
  | .dec _ => ['D', 'E', 'C']
  | .raw _ _ _ => ['R', 'A', 'W']

/-- The operands that `printForm` prints. -/
def AsmForm.operands : AsmForm → List (List Char)
  | .hd x y => [printNumber x, printNumber y]
  | .cfgNamed m t => [printModulation m, printNumber t]
  | .cfg m t => [printNumber m, printNumber t]
  | .enc s => [printNumber s]
  | .dec c => [printNumber c]
  | .raw w a b => [printNumber w, printNumber a, printNumber b]

theorem printForm_eq (f : AsmForm) : printForm f = f.mnemonic ++ ' ' :: joinOperands f.operands := by
  cases f <;>
    simp [printForm, AsmForm.mnemonic, AsmForm.operands, joinOperands_cons_cons, joinOperands_singleton]

theorem isPlain_hexDigit {d : ℕ} (h : d < 16) : isPlain (hexDigit d) = true := by
  interval_cases d <;> decide

theorem isPlain_of_mem_hexDigits (k n : ℕ) : ∀ c ∈ hexDigits k n, isPlain c = true := by
  induction k with
  | zero => simp [hexDigits]
  | succ k ih => exact List.forall_mem_cons.mpr ⟨isPlain_hexDigit (Nat.mod_lt _ (by decide)), ih⟩

theorem isPiece_printNumber (n : ℕ) : IsPiece (printNumber n) := by
  refine isPiece_of_isPlain (by simp [printNumber]) ?_
  simp only [printNumber, List.forall_mem_cons]
  exact ⟨by decide, by decide, isPlain_of_mem_hexDigits 8 n⟩

theorem isPiece_printModulation (m : Modulation) : IsPiece (printModulation m) :=
  isPiece_of_isPlain (by cases m <;> simp [printModulation]) (List.all_eq_true.mp (by cases m <;> decide))

theorem isPiece_mnemonic (f : AsmForm) : IsPiece f.mnemonic :=
  isPiece_of_isPlain (by cases f <;> simp [AsmForm.mnemonic]) (List.all_eq_true.mp (by cases f <;> rfl))

theorem isPiece_of_mem_operands (f : AsmForm) : ∀ p ∈ f.operands, IsPiece p := by
  cases f <;> simp [AsmForm.operands, isPiece_printNumber, isPiece_printModulation]

theorem operands_ne_nil (f : AsmForm) : f.operands ≠ [] := by cases f <;> simp [AsmForm.operands]

theorem readForm_hd (x y : List Char) :
    readForm ['H', 'D'] [x, y] = (do some (.hd (← readNumber x) (← readNumber y))) := rfl

theorem readForm_cfgNamed (m : Modulation) (t : List Char) :
    readForm ['C', 'F', 'G'] [printModulation m, t] = (do some (.cfgNamed m (← readNumber t))) := by
  cases m <;> rfl

/-- A printed number begins with a digit, so it is not taken for the name of a modulation. -/
theorem readForm_cfg (m : ℕ) (t : List Char) :
    readForm ['C', 'F', 'G'] [printNumber m, t] = (do some (.cfg (← readNumber (printNumber m)) (← readNumber t))) := rfl

theorem readForm_enc (s : List Char) : readForm ['E', 'N', 'C'] [s] = (do some (.enc (← readNumber s))) := rfl

theorem readForm_dec (c : List Char) : readForm ['D', 'E', 'C'] [c] = (do some (.dec (← readNumber c))) := rfl

theorem readForm_raw (w a b : List Char) :
    readForm ['R', 'A', 'W'] [w, a, b] = (do some (.raw (← readNumber w) (← readNumber a) (← readNumber b))) := rfl

theorem readForm_printed {f : AsmForm} (h : f.wellFormed = true) : readForm f.mnemonic f.operands = some f := by
  cases f with
  | hd x y =>
    obtain ⟨hx, hy⟩ : fitsWord x = true ∧ fitsWord y = true := by simpa [AsmForm.wellFormed] using h
    simp [AsmForm.mnemonic, AsmForm.operands, readForm_hd, readNumber_printNumber, hx, hy]
  | cfgNamed m t =>
    have ht : fitsWord t = true := h
    simp [AsmForm.mnemonic, AsmForm.operands, readForm_cfgNamed, readNumber_printNumber, ht]
  | cfg m t =>
    obtain ⟨hm, ht⟩ : fitsWord m = true ∧ fitsWord t = true := by simpa [AsmForm.wellFormed] using h
    simp [AsmForm.mnemonic, AsmForm.operands, readForm_cfg, readNumber_printNumber, hm, ht]
  | enc s =>
    have hs : fitsWord s = true := h
    simp [AsmForm.mnemonic, AsmForm.operands, readForm_enc, readNumber_printNumber, hs]
  | dec c =>
    have hc : fitsWord c = true := h
    simp [AsmForm.mnemonic, AsmForm.operands, readForm_dec, readNumber_printNumber, hc]
  | raw w a b =>
    obtain ⟨⟨hw, ha⟩, hb⟩ : (fitsWord w = true ∧ fitsWord a = true) ∧ fitsWord b = true := by
      simpa [AsmForm.wellFormed] using h
    simp [AsmForm.mnemonic, AsmForm.operands, readForm_raw, readNumber_printNumber, hw, ha, hb]

theorem readLine_listing (t : Transaction) : readLine (listing t) = some [disassemble t] := by
  have hform := readForm_printed (wellFormed_of_assemble (assemble_disassemble t))
  simpa [listing, printForm_eq] using
    readLine_of_pieces (isPiece_mnemonic _) (operands_ne_nil _) (isPiece_of_mem_operands _) hform
      (' ' :: hexDigits 8 t.cmd.toNat ++ ' ' :: hexDigits 8 t.opa.toNat ++ ' ' :: hexDigits 8 t.opb.toNat)

theorem assembleText_of_readLine {line : List Char} {f : AsmForm} {t : Transaction} (hline : readLine line = some [f])
    (hf : assemble f = some t) : assembleText [line] = some [t] := by
  simp [assembleText, hline, hf]

/-- Settles O46: the line is read as the disassembled form, which assembles to the transaction. -/
theorem listingLineReadsBack : Obligations.ListingLineReadsBack := by
  unfold Obligations.ListingLineReadsBack
  exact fun t => ⟨readLine_listing t, assembleText_of_readLine (readLine_listing t) (assemble_disassemble t)⟩

end Sys2Proof.Machine

/-! ## HD and the exact popcount

What HD answers, its corner cases, and the count taken byte by byte (40_hamming_distance.md R66, R69). -/

namespace Sys2Proof.Machine

theorem exec_hd (x y : Word) (s : State) :
    exec (.hd x y) s = .next (writeResult (BitVec.ofNat 32 (hammingDistance x y)) false s) := rfl

/-- "The result never exceeds 32 and so cannot overflow RESULT" (R66). -/
theorem toNat_ofNat_hammingDistance (x y : Word) :
    (BitVec.ofNat 32 (hammingDistance x y)).toNat = hammingDistance x y := by
  have hle := hammingDistance_le x y
  exact (BitVec.toNat_ofNat _ _).trans (Nat.mod_eq_of_lt (by omega))

theorem popcount_zero : popcount 0 = 0 := by decide

theorem hammingDistance_self (x : Word) : hammingDistance x x = 0 := by
  rw [hammingDistance, BitVec.xor_self]
  exact popcount_zero

theorem hammingDistance_zero_right (x : Word) : hammingDistance x 0 = popcount x :=
  congrArg popcount BitVec.xor_zero

/-- Two words differ at every position exactly when one is the complement of the other. -/
theorem differingBits_eq_width_iff {n : ℕ} (x y : BitVec n) : differingBits x y = n ↔ y = ~~~x := by
  calc differingBits x y = n
      ↔ ∀ k < n, x.getLsbD k ≠ y.getLsbD k := by
        simpa [differingBits] using
          Finset.card_filter_eq_iff (s := Finset.range n) (p := fun k => x.getLsbD k ≠ y.getLsbD k)
    _ ↔ ∀ k < n, y.getLsbD k = (~~~x).getLsbD k :=
        forall₂_congr fun k hk => by
          rw [BitVec.getLsbD_not, decide_eq_true hk, Bool.true_and, ne_comm, Bool.eq_not]
    _ ↔ y = ~~~x := ⟨BitVec.eq_of_getLsbD_eq, fun h _ _ => h ▸ rfl⟩

theorem hammingDistance_eq_32_iff (x y : Word) : hammingDistance x y = 32 ↔ y = ~~~x := by
  rw [hammingDistance_eq_differingBits, differingBits_eq_width_iff]

/-- Settles O14: each clause is a fact about the distance, which RESULT holds unchanged. -/
theorem hdCountsTheDifferingBits : Obligations.HdCountsTheDifferingBits := by
  unfold Obligations.HdCountsTheDifferingBits
  refine ⟨fun x y s => ⟨rfl, _, exec_hd x y s, ?frame, ?count, ?bound, ?same, ?complement, ?zero⟩,
    fun s => ?exampleOfR66⟩
  case frame =>
    rw [← hammingDistance_eq_differingBits]
    rfl
  case count => exact (toNat_ofNat_hammingDistance x y).trans (hammingDistance_eq_differingBits x y)
  case bound => exact (toNat_ofNat_hammingDistance x y).trans_le (hammingDistance_le x y)
  case same =>
    rintro rfl
    rw [writeResult_result, hammingDistance_self]
    rfl
  case complement =>
    rw [writeResult_result, ← hammingDistance_eq_32_iff, ← BitVec.toNat_inj, toNat_ofNat_hammingDistance]
    rfl
  case zero =>
    rintro rfl
    exact (toNat_ofNat_hammingDistance x 0).trans (hammingDistance_zero_right x)
  case exampleOfR66 =>
    have hdist : hammingDistance 0b1010 0b0101 = 4 := by decide
    rw [exec_hd, hdist]
    rfl

/-- The positions of the four bytes, byte by byte, are the positions of the word. -/
theorem flatMap_bytePositions : (List.range 4).flatMap (fun b => (List.range 8).map (8 * b + ·)) = List.range 32 := by
  decide

/-- Settles O18: the byte sum counts along the same positions, eight at a time. -/
theorem byteSumPopcountConforms : Obligations.ByteSumPopcountConforms := by
  unfold Obligations.ByteSumPopcountConforms
  intro v
  rw [popcount, ← flatMap_bytePositions, List.countP_flatMap]
  simp only [byteSumPopcount, Function.comp_def, List.countP_map]

/-- Settles O39: neither the value nor the flag that HD writes mentions the state. -/
theorem hdIgnoresTheConfiguration : Obligations.HdIgnoresTheConfiguration := by
  unfold Obligations.HdIgnoresTheConfiguration
  intro s s' x y
  exact ⟨_, _, exec_hd x y s, exec_hd x y s', rfl, rfl⟩

/-- Settles O37: with CFG shut out, a command ends in `raiseFault` or in `writeResult` on the state it began in. -/
theorem hdEncDecFrame : Obligations.HdEncDecFrame := by
  unfold Obligations.HdEncDecFrame
  intro i s t hcfg ht
  obtain ⟨_, _, hrun⟩ | ⟨_, _, _, hrun⟩ | ⟨m, th, _, _, hi, _, _, _, _⟩ | ⟨_, _, _, _, _, hrun⟩ |
    ⟨_, _, _, _, _, hrun⟩ | ⟨_, _, _, _, _, hrun⟩ := exec_cases i s
  case inr.inr.inl => exact absurd hi (hcfg m th)
  all_goals obtain rfl := Host.Outcome.next.inj (hrun.symm.trans ht)
  case inl => exact .inr rfl
  all_goals exact .inl rfl

end Sys2Proof.Machine

/-! ## CFG

What a CFG answers for operands it rejects, and that a CFG that completes forgets the configuration it replaces
(41_chip_codec.md R71, R72). -/

namespace Sys2Proof.Machine

theorem exec_cfg_of_badModulation {m : Word} (hm : 1 < m.toNat) (t : Word) (s : State) :
    exec (.cfg m t) s = .next (raiseFault .badModulation s) := by
  obtain ⟨h, -⟩ | ⟨h, -⟩ | ⟨-, hop⟩ := modulationOperand_cases m
  · omega
  · omega
  · simp only [exec, execCfg, hop]

theorem exec_cfg_of_badThreshold {m : Modulation} {t : Word} (ht : cps m < t.toNat) (s : State) :
    exec (.cfg (BitVec.ofNat 32 (modCode m).toNat) t) s = .next (raiseFault .badThreshold s) := by
  obtain ⟨-, hop⟩ | ⟨hle, -⟩ := thresholdOperand_cases m t
  · simp only [exec, execCfg, modulationOperand_modCode, hop]
  · omega

/-- Settles O20, clause by clause from what a legal CFG writes and what the two checks raise. -/
theorem cfgConfiguresOrFaults : Obligations.CfgConfiguresOrFaults := by
  unfold Obligations.CfgConfiguresOrFaults
  refine fun m t s => ⟨rfl, ?bpsk, ?oqpsk, ?badModulation, ?badBpskThreshold, ?badOqpskThreshold⟩
  case bpsk =>
    rintro rfl ht
    exact exec_cfg_of_legal (m := .bpsk) ht s
  case oqpsk =>
    rintro rfl ht
    exact exec_cfg_of_legal (m := .oqpsk) ht s
  case badModulation => exact fun hm => exec_cfg_of_badModulation hm t s
  case badBpskThreshold =>
    rintro rfl ht
    exact exec_cfg_of_badThreshold (m := .bpsk) ht s
  case badOqpskThreshold =>
    rintro rfl ht
    exact exec_cfg_of_badThreshold (m := .oqpsk) ht s

/-- The five fields that a completing CFG writes hold nothing of the state before it (R72). -/
theorem writeResult_configure_congr {s s' : State} (hfault : s.fault = s'.fault) (hcause : s.cause = s'.cause)
    (hrom : s.oqpskChip = s'.oqpskChip) (hpending : s.pending = s'.pending) (value : Word) (hit : Bool) (m : Modulation)
    (th : BitVec 6) : writeResult value hit (configure m th s) = writeResult value hit (configure m th s') := by
  simp only [writeResult, configure, hfault, hcause, hrom, hpending]

theorem eq_modCode_of_toNat_le_one {m : Word} (h : m.toNat ≤ 1) :
    ∃ modulation, m = BitVec.ofNat 32 (modCode modulation).toNat := by
  obtain h0 | h1 : m.toNat = 0 ∨ m.toNat = 1 := by omega
  · exact ⟨.bpsk, BitVec.eq_of_toNat_eq h0⟩
  · exact ⟨.oqpsk, BitVec.eq_of_toNat_eq h1⟩

/-- The bound that O21 puts on OPB is `cps` of the modulation that OPA names (00_scope.md R11). -/
theorem cps_eq_ite (m : Modulation) : (if BitVec.ofNat 32 (modCode m).toNat = 0 then 15 else 32) = cps m := by
  cases m <;> rfl

/-- Settles O21: the two first steps answer the same state, and every later step starts from it. -/
theorem cfgForgetsTheOldConfiguration : Obligations.CfgForgetsTheOldConfiguration := by
  unfold Obligations.CfgForgetsTheOldConfiguration
  rintro s s' ⟨cmd, opa, opb⟩ rest k rfl hm hopb hf hf' hcause hrom hp hp'
  obtain ⟨m, rfl⟩ := eq_modCode_of_toNat_le_one hm
  rw [cps_eq_ite] at hopb
  obtain ⟨th, hth, hcfg⟩ := exec_cfg_of_legal hopb (setPending rest s)
  obtain ⟨th', hth', hcfg'⟩ := exec_cfg_of_legal hopb (setPending rest s')
  obtain rfl : th = th' := BitVec.eq_of_toNat_eq (hth.trans hth'.symm)
  have hstep := (step_of_encode (i := .cfg _ opb) hp hf).trans hcfg
  have hstep' := (step_of_encode (i := .cfg _ opb) hp' hf').trans hcfg'
  have hsame : writeResult 0 false (configure m th (setPending rest s))
      = writeResult 0 false (configure m th (setPending rest s')) :=
    writeResult_configure_congr (s := setPending rest s) (s' := setPending rest s') (hf.trans hf'.symm) hcause hrom rfl
      0 false m th
  rw [run_succ_of_next hstep, run_succ_of_next hstep', hsame]

end Sys2Proof.Machine

/-! ## ENC and DEC

The outcomes of an ENC, of a DEC of an unconfigured block, and of a DEC as the statement of R74 to R76 gives them. -/

namespace Sys2Proof.Machine

theorem exec_enc_of_unconfigured {s : State} (hv : s.cfgValid = false) (sym b : Word) :
    exec (.enc sym b) s = .next (raiseFault .notConfigured s) := by
  simp [exec, execEnc, hv]

/-- ENC of an index writes the chip pattern stored there, and neither CFG_THRESH nor OPB takes part (41_chip_codec.md R73). -/
theorem exec_enc_of_index {s : State} {m : Modulation} {sym : Word} (hv : s.cfgValid = true) (hm : s.cfgMod = m)
    {k : ℕ} (hk : k < nsym m) (hsym : sym.toNat = k) (b : Word) :
    exec (.enc sym b) s = .next (writeResult (romRead s.oqpskChip m ⟨k, hk⟩).chip false s) := by
  subst hm hsym
  obtain ⟨hge, -⟩ | ⟨_, hop⟩ := symbolOperand_cases s.cfgMod sym
  · omega
  · simp only [exec, execEnc, hv, hop, if_true]

theorem exec_enc_of_symbolRange {s : State} {m : Modulation} {sym : Word} (hv : s.cfgValid = true) (hm : s.cfgMod = m)
    (hsym : nsym m ≤ sym.toNat) (b : Word) : exec (.enc sym b) s = .next (raiseFault .symbolRange s) := by
  subst hm
  obtain ⟨-, hop⟩ | ⟨hlt, -⟩ := symbolOperand_cases s.cfgMod sym
  · simp only [exec, execEnc, hv, hop, if_true]
  · omega

/-- Settles O25: the outcome by the range of the symbol, the pattern by the lemmas about `romRead`. -/
theorem encLooksUpOrFaults : Obligations.EncLooksUpOrFaults := by
  unfold Obligations.EncLooksUpOrFaults
  refine fun sym b s => ⟨rfl, fun hv => exec_enc_of_unconfigured hv sym b, fun hv hm => ⟨?bpsk0, ?bpsk1, ?bpskRange⟩,
    fun hv hm => ⟨?oqpsk0, ?oqpskSucc, ?oqpskRange⟩⟩
  case bpsk0 =>
    rintro rfl
    rw [exec_enc_of_index hv hm (k := 0) (by decide) rfl, romRead_bpsk_zero]
    rfl
  case bpsk1 =>
    rintro rfl
    rw [exec_enc_of_index hv hm (k := 1) (by decide) rfl, romRead_bpsk_one]
    rfl
  case bpskRange => exact fun hsym => exec_enc_of_symbolRange hv hm hsym b
  case oqpsk0 =>
    rintro rfl
    rw [exec_enc_of_index hv hm (k := 0) (by decide) rfl, romRead_oqpsk_zero]
    rfl
  case oqpskSucc =>
    intro k hsym
    have hk : k.val + 1 < nsym .oqpsk := Nat.succ_lt_succ k.isLt
    rw [exec_enc_of_index hv hm hk hsym, romRead_oqpsk_succ]
    rfl
  case oqpskRange => exact fun hsym => exec_enc_of_symbolRange hv hm hsym b

theorem exec_dec_of_unconfigured {s : State} (hv : s.cfgValid = false) (c b : Word) :
    exec (.dec c b) s = .next (raiseFault .notConfigured s) := by
  simp [exec, execDec, hv]

/-- Settles O26: the entry is the one the scan ends with, and the threshold decides between `exec_dec_of_hit` and
`exec_dec_of_miss`. -/
theorem decFindsTheFirstNearestEntry : Obligations.DecFindsTheFirstNearestEntry := by
  unfold Obligations.DecFindsTheFirstNearestEntry
  refine fun c b s => ⟨rfl, fun hv => exec_dec_of_unconfigured hv c b, fun hv => ?_⟩
  refine ⟨(nearest s.oqpskChip s.cfgMod c).idx, nearest_isFirstNearest _ _ c, ?_⟩
  rw [← nearest_dist_eq]
  split
  · next hnear => exact exec_dec_of_hit b hv hnear
  · next hfar => exact exec_dec_of_miss b hv (not_le.mp hfar)

end Sys2Proof.Machine

/-! ## Early exits of the scan

The exit on an exact match conforms, the exit on the first entry within the threshold does not (41_chip_codec.md R77). -/

namespace Sys2Proof.Machine

/-- No entry is strictly nearer than an exact match, so the rest of the scan keeps it. -/
theorem foldl_keepNearer_of_dist_zero {rom : Vector Word 15} {m : Modulation} {c : Word} {best : Best m}
    (h : best.dist = 0) (entries : List (Fin (nsym m))) : entries.foldl (keepNearer rom m c) best = best := by
  induction entries with
  | nil => rfl
  | cons i rest ih =>
    obtain ⟨-, hkeep⟩ | ⟨hlt, -⟩ := keepNearer_cases rom m c best i
    · rw [List.foldl_cons, hkeep, ih]
    · omega

theorem scanToExact_eq_foldl (rom : Vector Word 15) (m : Modulation) (c : Word) (entries : List (Fin (nsym m)))
    (best : Best m) : scanToExact rom m c entries best = entries.foldl (keepNearer rom m c) best := by
  induction entries generalizing best with
  | nil => rfl
  | cons i rest ih =>
    rw [scanToExact]
    split
    · next hexact => exact (foldl_keepNearer_of_dist_zero hexact _).symm
    · exact ih _

/-- Settles O32: both scans start at entry 0 and run over the same entries. -/
theorem exactMatchExitIsTheFullScan : Obligations.ExactMatchExitIsTheFullScan := by
  unfold Obligations.ExactMatchExitIsTheFullScan
  exact fun rom m c => scanToExact_eq_foldl rom m c _ _

theorem firstWithin_of_entry_zero {rom : Vector Word 15} {m : Modulation} {c : Word} {th : BitVec 6}
    (h : entryDistance rom m c ⟨0, nsym_pos m⟩ ≤ th.toNat) : firstWithin rom m c th = some ⟨0, nsym_pos m⟩ := by
  rw [firstWithin, finRange_nsym]
  exact List.find?_cons_of_pos (decide_eq_true h)

theorem ne_nearest_idx_of_nearer {rom : Vector Word 15} {m : Modulation} {c : Word} {i j : Fin (nsym m)}
    (h : entryDistance rom m c j < entryDistance rom m c i) : i ≠ (nearest rom m c).idx := by
  obtain ⟨-, heq, hle, -⟩ := firstNearestOf_nearest rom m c
  rintro rfl
  have := hle j (List.mem_finRange j)
  omega

/-- Entry 0 within the threshold hides any nearer entry from the exit that R77 forbids. -/
theorem firstWithin_ne_nearest {rom : Vector Word 15} {m : Modulation} {c : Word} {th : BitVec 6} {j : Fin (nsym m)}
    (hzero : entryDistance rom m c ⟨0, nsym_pos m⟩ ≤ th.toNat)
    (hnearer : entryDistance rom m c j < entryDistance rom m c ⟨0, nsym_pos m⟩) :
    ∃ i, firstWithin rom m c th = some i ∧ i ≠ (nearest rom m c).idx :=
  ⟨_, firstWithin_of_entry_zero hzero, ne_nearest_idx_of_nearer hnearer⟩

/-- Settles O33: at the largest legal threshold entry 0 is accepted for the chip word that is entry 1 exactly. The table is the
candidate of 10_state.md R30, which serves here only as fifteen words that are distinct and not entry 0. -/
theorem firstWithinThresholdDoesNotConform : Obligations.FirstWithinThresholdDoesNotConform := by
  unfold Obligations.FirstWithinThresholdDoesNotConform
  have hdistinct : TableDistinct (candidateChip derivedEntry11) := by decide
  intro m
  cases m with
  | bpsk =>
    obtain ⟨i, hfirst, hne⟩ := firstWithin_ne_nearest (rom := candidateChip derivedEntry11) (m := .bpsk) (c := 0x00007650)
      (th := 15) (j := ⟨1, by decide⟩) (by decide) (by decide)
    exact ⟨_, _, _, i, hdistinct, by decide, hfirst, hne⟩
  | oqpsk =>
    obtain ⟨i, hfirst, hne⟩ := firstWithin_ne_nearest (rom := candidateChip derivedEntry11) (m := .oqpsk) (c := 0x4e077ae6)
      (th := 32) (j := ⟨1, by decide⟩) (by decide) (by decide)
    exact ⟨_, _, _, i, hdistinct, by decide, hfirst, hne⟩

end Sys2Proof.Machine

/-! ## A transaction at a running or a halted block

The order of 60_exceptions.md R96 at the step, and runs of a block that ignores its input or has none (R97, R106). -/

namespace Sys2Proof.Machine

theorem step_of_idle {s : State} (hp : s.pending = []) : step s = .next s := by
  simp only [step, takeNext, hp]

/-- A faulted block drops a transaction, whether or not it spells a command (60_exceptions.md R97). -/
theorem step_of_faulted {s : State} {t : Transaction} {rest : List HostInput} (hp : s.pending = .transact t :: rest)
    (hf : s.fault = true) : step s = .next (setPending rest s) := by
  rw [step_of_transact hp, transact, setPending_fault, if_pos hf]

theorem step_of_illegal {s : State} {t : Transaction} {rest : List HostInput} {e : Illegal}
    (hp : s.pending = .transact t :: rest) (hf : s.fault = false) (hd : decode t = .error e) :
    step s = .next (raiseFault .illegalCommand (setPending rest s)) := by
  rw [step_of_transact hp, transact_of_error hd, setPending_fault, hf]
  rfl

/-- `step_of_encode` for a transaction given by what the decoder reads from it. -/
theorem step_of_decode {s : State} {t : Transaction} {rest : List HostInput} {i : Instr}
    (hp : s.pending = .transact t :: rest) (hf : s.fault = false) (hd : decode t = .ok i) :
    step s = exec i (setPending rest s) := by
  obtain rfl := decode_eq_ok_iff.mp hd
  exact step_of_encode hp hf

/-- Settles O5: one clause for each branch of R96. -/
theorem stepRunsTheDecodedCommand : Obligations.StepRunsTheDecodedCommand := by
  unfold Obligations.StepRunsTheDecodedCommand
  exact fun s t rest hp =>
    ⟨step_of_faulted hp, fun e hf hd => step_of_illegal hp hf hd, fun i hf hd _ => step_of_decode hp hf hd⟩

/-- Settles O7, by induction on the number of steps. -/
theorem idleBlockHoldsItsState : Obligations.IdleBlockHoldsItsState := by
  unfold Obligations.IdleBlockHoldsItsState
  intro s k hp
  induction k with
  | zero => exact run_none s
  | succ k ih => exact (run_succ_of_next (step_of_idle hp)).trans ih

theorem run_of_faulted {s : State} (hf : s.fault = true) (ts : List Transaction) {rest : List HostInput}
    (hp : s.pending = ts.map HostInput.transact ++ rest) :
    Host.Core.run Sys2Proof.core ts.length s = .next (setPending rest s) := by
  induction ts generalizing s with
  | nil =>
    obtain rfl : s.pending = rest := hp
    exact run_none s
  | cons t ts ih => exact (run_succ_of_next (step_of_faulted hp hf)).trans (ih hf rfl)

/-- The response shows a recorded fault and its cause in STATUS (10_state.md R36). -/
theorem response_of_faulted {s : State} (hf : s.fault = true) :
    (response s).2.getLsbD 31 = true ∧ (response s).2.extractLsb' 16 4 = s.cause := by
  obtain ⟨-, -, -, -, -, -, -, hcause, -, hfault⟩ := statusShowsEveryField s
  exact ⟨hfault.trans hf, hcause⟩

/-- Settles O9: `run_of_faulted` gives the last state, in which only the waiting inputs differ. -/
theorem faultedBlockIgnoresTransactions : Obligations.FaultedBlockIgnoresTransactions := by
  unfold Obligations.FaultedBlockIgnoresTransactions
  intro s ts rest hf hp
  obtain ⟨hbit, hcause⟩ := response_of_faulted (s := setPending rest s) hf
  exact ⟨_, run_of_faulted hf ts hp, rfl, rfl, hbit, hcause, by simp [endsCorrectly, hf]⟩

end Sys2Proof.Machine

/-! ## Faults

Taking a fault writes FAULT and CAUSE alone, a decode miss is none, and the checks come in the order of 60_exceptions.md R93. -/

namespace Sys2Proof.Machine

/-- A command that records a fault ends in `raiseFault` on the state it began in (R94, R95). -/
theorem eq_raiseFault_of_exec {i : Instr} {s t : State} (hs : s.fault = false) (ht : exec i s = .next t)
    (hf : t.fault = true) : ∃ c, c ≠ .none ∧ t = raiseFault c s := by
  obtain ⟨c, hc, hrun⟩ | ⟨_, _, _, hrun⟩ | ⟨_, _, _, _, _, _, _, _, hrun⟩ | ⟨_, _, _, _, _, hrun⟩ |
    ⟨_, _, _, _, _, hrun⟩ | ⟨_, _, _, _, _, hrun⟩ := exec_cases i s
  all_goals obtain rfl := Host.Outcome.next.inj (hrun.symm.trans ht)
  case inl => exact ⟨c, by rintro rfl; simp at hc, rfl⟩
  all_goals simp [hs] at hf

theorem eq_raiseFault_of_step {s t : State} {tx : Transaction} {rest : List HostInput}
    (hp : s.pending = .transact tx :: rest) (hs : s.fault = false) (ht : step s = .next t) (hf : t.fault = true) :
    ∃ c, c ≠ .none ∧ t = raiseFault c (setPending rest s) := by
  cases hd : decode tx with
  | error e => exact ⟨.illegalCommand, by decide, Host.Outcome.next.inj (ht.symm.trans (step_of_illegal hp hs hd))⟩
  | ok i => exact eq_raiseFault_of_exec (s := setPending rest s) hs ((step_of_decode hp hs hd).symm.trans ht) hf

/-- Settles O41: the state is `raiseFault` of the one before, and the block it leaves is halted. -/
theorem faultsArePrecise : Obligations.FaultsArePrecise := by
  unfold Obligations.FaultsArePrecise
  intro s t tx rest hp hs ht hf
  obtain ⟨hbit, hcause⟩ := response_of_faulted hf
  obtain ⟨c, hc, rfl⟩ := eq_raiseFault_of_step hp hs ht hf
  obtain ⟨hlow, hhigh⟩ := causeCode_bounds hc
  exact ⟨rfl, hlow, hhigh, hbit, hcause, fun tx' rest' hrest => step_of_faulted hrest rfl⟩

/-- Settles O27: no entry is within the threshold, so the DEC misses, and the block it leaves runs the next command. -/
theorem decodeMissIsNoFault : Obligations.DecodeMissIsNoFault := by
  unfold Obligations.DecodeMissIsNoFault
  intro c b s rest hf hv hp hfar
  have hmiss : s.cfgThresh.toNat < (nearest s.oqpskChip s.cfgMod c).dist := by
    rw [nearest_dist_eq]
    exact hfar _
  have hdec := exec_dec_of_miss (s := setPending rest s) b hv hmiss
  refine ⟨_, (step_of_encode (i := .dec c b) hp hf).trans hdec, rfl, hf, ?_⟩
  exact fun t' i rest' hrest hd => step_of_decode hrest hf hd

/-- CFG checks the modulation, then the threshold (R89, R90, R93). -/
theorem exec_cfg_fault_cause (m t : Word) {s : State} (hf : s.fault = false) :
    ∃ u, exec (.cfg m t) s = .next u ∧
      (if 1 < m.toNat then u.fault = true ∧ u.cause = 2
       else if (if m = 0 then 15 else 32) < t.toNat then u.fault = true ∧ u.cause = 3
       else u.fault = false ∧ u.cause = s.cause) := by
  by_cases hm : 1 < m.toNat
  · exact ⟨_, exec_cfg_of_badModulation hm t s, by simp [hm, causeCode]⟩
  · obtain ⟨modulation, rfl⟩ := eq_modCode_of_toNat_le_one (not_lt.mp hm)
    simp only [if_neg hm, cps_eq_ite]
    by_cases ht : cps modulation < t.toNat
    · exact ⟨_, exec_cfg_of_badThreshold ht s, by simp [ht, causeCode]⟩
    · obtain ⟨th, -, hrun⟩ := exec_cfg_of_legal (not_lt.mp ht) s
      exact ⟨_, hrun, by simp [ht, hf]⟩

/-- The bound that O40 puts on the symbol is `nsym` of the configured modulation (00_scope.md R11). -/
theorem nsym_eq_ite (m : Modulation) : (if m = .bpsk then 2 else 16) = nsym m := by
  cases m <;> rfl

/-- ENC checks the configuration, then the symbol (R91, R92, R93). -/
theorem exec_enc_fault_cause (sym b : Word) {s : State} (hf : s.fault = false) :
    ∃ u, exec (.enc sym b) s = .next u ∧
      (if s.cfgValid = false then u.fault = true ∧ u.cause = 4
       else if (if s.cfgMod = .bpsk then 2 else 16) ≤ sym.toNat then u.fault = true ∧ u.cause = 5
       else u.fault = false ∧ u.cause = s.cause) := by
  rw [nsym_eq_ite]
  cases hv : s.cfgValid with
  | false => exact ⟨_, exec_enc_of_unconfigured hv sym b, by simp [causeCode]⟩
  | true =>
    by_cases hsym : nsym s.cfgMod ≤ sym.toNat
    · exact ⟨_, exec_enc_of_symbolRange hv rfl hsym b, by simp [hsym, causeCode]⟩
    · exact ⟨_, exec_enc_of_index hv rfl (not_le.mp hsym) rfl b, by simp [hsym, hf]⟩

/-- DEC checks the configuration only: neither a hit nor a miss is a fault (R86, R91). -/
theorem exec_dec_fault_cause (c b : Word) {s : State} (hf : s.fault = false) :
    ∃ u, exec (.dec c b) s = .next u ∧
      (if s.cfgValid = false then u.fault = true ∧ u.cause = 4 else u.fault = false ∧ u.cause = s.cause) := by
  cases hv : s.cfgValid with
  | false => exact ⟨_, exec_dec_of_unconfigured hv c b, by simp [causeCode]⟩
  | true =>
    by_cases hnear : (nearest s.oqpskChip s.cfgMod c).dist ≤ s.cfgThresh.toNat
    · exact ⟨_, exec_dec_of_hit b hv hnear, by simp [hf]⟩
    · exact ⟨_, exec_dec_of_miss b hv (not_le.mp hnear), by simp [hf]⟩

/-- Settles O40: the block's state, then the command word, then the checks of the command it spells. -/
theorem faultPriority : Obligations.FaultPriority := by
  unfold Obligations.FaultPriority
  intro s tx rest hp
  by_cases hf : s.fault = true
  · exact ⟨_, step_of_faulted hp hf, by rw [if_pos hf]; rfl⟩
  · simp only [if_neg hf]
    rw [Bool.not_eq_true] at hf
    cases hd : decode tx with
    | error e =>
      have hcmd : ¬ ∃ i, decode tx = .ok i := by simp [hd]
      simp only [decode_ok_iff_cmd, not_or] at hcmd
      exact ⟨_, step_of_illegal hp hf hd, by rw [if_pos hcmd]; exact ⟨rfl, rfl⟩⟩
    | ok i =>
      rw [step_of_decode hp hf hd]
      obtain rfl := decode_eq_ok_iff.mp hd
      cases i with
      | hd x y => exact ⟨_, exec_hd x y _, by simp [encode, hf]⟩
      | cfg m t =>
        obtain ⟨u, hrun, hchecks⟩ := exec_cfg_fault_cause m t (s := setPending rest s) hf
        exact ⟨u, hrun, by grind [encode, setPending_cause]⟩
      | enc sym b =>
        obtain ⟨u, hrun, hchecks⟩ := exec_enc_fault_cause sym b (s := setPending rest s) hf
        exact ⟨u, hrun, by grind [encode, setPending_cfgValid, setPending_cfgMod, setPending_cause]⟩
      | dec c b =>
        obtain ⟨u, hrun, hchecks⟩ := exec_dec_fault_cause c b (s := setPending rest s) hf
        exact ⟨u, hrun, by grind [encode, setPending_cfgValid, setPending_cause]⟩

end Sys2Proof.Machine

/-! ## What a reset alone clears

FAULT, CAUSE and CFG_VALID stay set through every operation, every command and every step but a reset
(70_reset_and_hazards.md R107). -/

namespace Sys2Proof.Machine

/-- Going from `s` to `t` clears none of the three fields of R107. -/
def ClearsNothing (s t : State) : Prop :=
  (s.fault = true → t.fault = true) ∧ (s.cause ≠ 0 → t.cause ≠ 0) ∧ (s.cfgValid = true → t.cfgValid = true)

theorem causeCode_ne_zero {c : Cause} (h : c ≠ .none) : causeCode c ≠ 0 := by
  intro hzero
  obtain ⟨hlow, -⟩ := causeCode_bounds h
  simp [hzero] at hlow

theorem clearsNothing_setPending (rest : List HostInput) (s : State) : ClearsNothing s (setPending rest s) :=
  ⟨id, id, id⟩

/-- CAUSE may change, but never to the 0 of NONE (60_exceptions.md R87). -/
theorem clearsNothing_raiseFault {c : Cause} (hc : c ≠ .none) (s : State) : ClearsNothing s (raiseFault c s) :=
  ⟨fun _ => rfl, fun _ => causeCode_ne_zero hc, id⟩

theorem clearsNothing_writeResult (value : Word) (hit : Bool) (s : State) : ClearsNothing s (writeResult value hit s) :=
  ⟨id, id, id⟩

/-- A completing CFG writes CFG_VALID, but only to 1 (41_chip_codec.md R71). -/
theorem clearsNothing_writeResult_configure (m : Modulation) (th : BitVec 6) (value : Word) (hit : Bool) (s : State) :
    ClearsNothing s (writeResult value hit (configure m th s)) :=
  ⟨id, id, fun _ => rfl⟩

theorem exec_clearsNothing {i : Instr} {s t : State} (ht : exec i s = .next t) : ClearsNothing s t := by
  obtain ⟨c, hc, hrun⟩ | ⟨_, _, _, hrun⟩ | ⟨_, _, _, _, _, _, _, _, hrun⟩ | ⟨_, _, _, _, _, hrun⟩ |
    ⟨_, _, _, _, _, hrun⟩ | ⟨_, _, _, _, _, hrun⟩ := exec_cases i s
  all_goals obtain rfl := Host.Outcome.next.inj (hrun.symm.trans ht)
  case inl => exact clearsNothing_raiseFault (by rintro rfl; simp at hc) s
  case inr.inr.inl => exact clearsNothing_writeResult_configure _ _ _ _ s
  all_goals exact clearsNothing_writeResult _ _ s

theorem step_reset_or_clearsNothing {s t : State} (ht : step s = .next t) :
    (∃ rest, s.pending = .reset :: rest) ∨ ClearsNothing s t := by
  obtain ⟨-, hs⟩ | ⟨rest, hp, -⟩ | ⟨_, rest, -, -, hs⟩ | ⟨_, rest, _, -, -, -, hs⟩ | ⟨_, rest, i, -, -, -, hs⟩ :=
    step_cases s
  case inr.inl => exact .inl ⟨rest, hp⟩
  all_goals
    right
    rw [hs] at ht
  · cases ht
    exact ⟨id, id, id⟩
  · cases ht
    exact clearsNothing_setPending rest s
  · cases ht
    exact clearsNothing_raiseFault (by decide) (setPending rest s)
  · exact exec_clearsNothing (s := setPending rest s) ht

/-- Settles O12: a step that is no reset clears none of the three fields. -/
theorem onlyResetClearsFaultCauseAndCfgValid : Obligations.OnlyResetClearsFaultCauseAndCfgValid := by
  unfold Obligations.OnlyResetClearsFaultCauseAndCfgValid
  refine ⟨fun s rest hp => ⟨_, step_of_reset hp, resetValues_hostReset _, fun _ _ => rfl⟩, fun s t ht hcleared => ?_⟩
  obtain hreset | ⟨hfault, hcause, hvalid⟩ := step_reset_or_clearsNothing ht
  · exact hreset
  · obtain ⟨hs, hclear⟩ | ⟨hs, hclear⟩ | ⟨hs, hclear⟩ := hcleared
    · simp [hfault hs] at hclear
    · exact absurd hclear (hcause hs)
    · simp [hvalid hs] at hclear

end Sys2Proof.Machine

/-! ## The laws of the distance

A count of bits is a sum of bits, so each law of HD is an identity between two or three bits, added up over the positions
(40_hamming_distance.md R67, R68). -/

namespace Sys2Proof.Machine

theorem card_filter_eq_sum (n : ℕ) (f : ℕ → Bool) :
    ((Finset.range n).filter fun k => f k = true).card = ∑ k ∈ Finset.range n, (f k).toNat := by
  rw [Finset.card_filter]
  exact Finset.sum_congr rfl fun k _ => by cases f k <;> rfl

theorem popcount_eq_sum (v : Word) : popcount v = ∑ k ∈ Finset.range 32, (v.getLsbD k).toNat := by
  rw [popcount_eq_card, card_filter_eq_sum]

theorem popcount_eq_zero_iff (v : Word) : popcount v = 0 ↔ v = 0 := by
  refine ⟨fun h => BitVec.eq_of_getLsbD_eq fun k hk => ?_, fun h => h ▸ popcount_zero⟩
  rw [popcount_eq_sum, Finset.sum_eq_zero_iff] at h
  simpa using h k (Finset.mem_range.mpr hk)

/-- Two ones at a position count twice on the right, and once in the conjunction. -/
theorem popcount_xor_add_two_mul_and (x y : Word) :
    popcount (x ^^^ y) + 2 * popcount (x &&& y) = popcount x + popcount y := by
  simp only [popcount_eq_sum, Finset.mul_sum, ← Finset.sum_add_distrib, BitVec.getLsbD_xor, BitVec.getLsbD_and]
  exact Finset.sum_congr rfl fun k _ => by cases x.getLsbD k <;> cases y.getLsbD k <;> rfl

theorem popcount_add_popcount_not (v : Word) : popcount v + popcount (~~~v) = 32 := by
  have hbit (k : ℕ) (hk : k ∈ Finset.range 32) : (v.getLsbD k).toNat + ((~~~v).getLsbD k).toNat = 1 := by
    rw [BitVec.getLsbD_not, decide_eq_true (Finset.mem_range.mp hk), Bool.true_and]
    cases v.getLsbD k <;> rfl
  rw [popcount_eq_sum, popcount_eq_sum, ← Finset.sum_add_distrib, Finset.sum_congr rfl hbit]
  rfl

theorem hammingDistance_comm (x y : Word) : hammingDistance x y = hammingDistance y x :=
  congrArg popcount (BitVec.xor_comm x y)

theorem hammingDistance_eq_zero_iff (x y : Word) : hammingDistance x y = 0 ↔ x = y := by
  rw [hammingDistance, popcount_eq_zero_iff]
  exact BitVec.xor_eq_zero_iff

/-- Xor with a common word moves neither word nearer to the other. -/
theorem hammingDistance_xor_xor (x y z : Word) : hammingDistance (x ^^^ z) (y ^^^ z) = hammingDistance x y := by
  refine congrArg popcount ?_
  rw [BitVec.xor_comm y z, BitVec.xor_assoc, ← BitVec.xor_assoc z z y, BitVec.xor_self, BitVec.zero_xor]

theorem hammingDistance_triangle (x y z : Word) :
    hammingDistance x y ≤ hammingDistance x z + hammingDistance z y := by
  have hsplit : hammingDistance x y = popcount ((x ^^^ z) ^^^ (z ^^^ y)) := by
    rw [BitVec.xor_comm z y]
    exact (hammingDistance_xor_xor x y z).symm
  have hcount := popcount_xor_add_two_mul_and (x ^^^ z) (z ^^^ y)
  rw [hsplit, hammingDistance, hammingDistance]
  omega

theorem hammingDistance_add_not (x y : Word) : hammingDistance x y + hammingDistance x (~~~y) = 32 := by
  rw [hammingDistance, hammingDistance, ← BitVec.not_xor_right]
  exact popcount_add_popcount_not _

/-- Past its width a narrower word reads 0 at every position, so zero-extension adds no difference. -/
theorem differingBits_setWidth {n w : ℕ} (h : n ≤ w) (x y : BitVec n) :
    differingBits (x.setWidth w) (y.setWidth w) = differingBits x y := by
  refine congrArg Finset.card (Finset.ext fun k => ?_)
  simp only [Finset.mem_filter, Finset.mem_range, BitVec.getLsbD_setWidth]
  by_cases hk : k < n
  · simp [hk, hk.trans_le h]
  · simp [hk, BitVec.getLsbD_of_ge _ _ (not_lt.mp hk)]

/-- Settles O16: the positions from `n` to 31 hold 0 in both extended words. -/
theorem hdOfZeroExtendedOperands : Obligations.HdOfZeroExtendedOperands := by
  unfold Obligations.HdOfZeroExtendedOperands
  intro n x y s _ hn
  refine ⟨_, exec_hd _ _ s, ?_⟩
  rw [writeResult_result, toNat_ofNat_hammingDistance, hammingDistance_eq_differingBits, differingBits_setWidth hn]

/-- Settles O17, law by law. -/
theorem hdLaws : Obligations.HdLaws := by
  unfold Obligations.HdLaws
  refine ⟨fun x y s => ⟨_, exec_hd x y s, toNat_ofNat_hammingDistance x y⟩, fun x y z => ?_⟩
  exact ⟨hammingDistance_comm x y, hammingDistance_self x, hammingDistance_eq_zero_iff x y,
    hammingDistance_triangle x y z, hammingDistance_xor_xor x y z, hammingDistance_add_not x y,
    popcount_xor_add_two_mul_and x y⟩

end Sys2Proof.Machine

/-! ## DEC by its outcome

What a DEC of a configured block answers, hit or miss at once, and the scan on a chip word that is an entry exactly
(41_chip_codec.md section 5, R79 and R81). -/

namespace Sys2Proof.Machine

/-- R76 in one line for hit and miss: the threshold decides, and a hit shows the entry the scan ends with. -/
theorem exec_dec_of_configured {s : State} (hv : s.cfgValid = true) (c b : Word) :
    ∃ t, exec (.dec c b) s = .next t
      ∧ (t.hit = true ↔ (nearest s.oqpskChip s.cfgMod c).dist ≤ s.cfgThresh.toNat)
      ∧ (t.hit = true → t.result = BitVec.ofNat 32 (nearest s.oqpskChip s.cfgMod c).idx) := by
  by_cases hnear : (nearest s.oqpskChip s.cfgMod c).dist ≤ s.cfgThresh.toNat
  · exact ⟨_, exec_dec_of_hit b hv hnear, by simp [hnear], fun _ => romRead_symbol s.oqpskChip s.cfgMod _⟩
  · exact ⟨_, exec_dec_of_miss b hv (not_le.mp hnear), by simp [hnear], by simp⟩

/-- An entry is at distance 0 from itself, and from no other entry of a distinct table. -/
theorem nearest_of_entry {rom : Vector Word 15} (h : TableDistinct rom) (m : Modulation) (i : Fin (nsym m)) :
    nearest rom m (romRead rom m i).chip = ⟨i, 0⟩ := by
  obtain ⟨-, heq, hle, -⟩ := firstNearestOf_nearest rom m (romRead rom m i).chip
  have hdist : (nearest rom m (romRead rom m i).chip).dist = 0 :=
    Nat.le_zero.mp ((hle i (List.mem_finRange i)).trans_eq (hammingDistance_self _))
  have hidx : i = (nearest rom m (romRead rom m i).chip).idx :=
    chip_injective h m ((hammingDistance_eq_zero_iff _ _).mp (heq.symm.trans hdist))
  exact congrArg₂ Best.mk hidx.symm hdist

/-- "Round trip": an exact entry is decoded to its symbol at every threshold, 0 among them. -/
theorem exec_dec_of_entry {s : State} {m : Modulation} (hv : s.cfgValid = true) (hm : s.cfgMod = m)
    (h : TableDistinct s.oqpskChip) (i : Fin (nsym m)) (b : Word) :
    exec (.dec (romRead s.oqpskChip m i).chip b) s = .next (writeResult (BitVec.ofNat 32 i) true s) := by
  subst hm
  rw [exec_dec_of_hit b hv (by simp [nearest_of_entry h]), nearest_of_entry h, romRead_symbol]

/-- Settles O28: the round trip by `exec_dec_of_entry`, the boundary by `nearest_dist_le_iff`; a larger threshold leaves the
scan as it is, which gives the monotonicity. -/
theorem decodeUndoesEncodeAndIsMonotone : Obligations.DecodeUndoesEncodeAndIsMonotone := by
  unfold Obligations.DecodeUndoesEncodeAndIsMonotone
  intro s hv htable
  refine ⟨fun sym b b' hsym => ?roundTrip, fun c b e ⟨j, hj⟩ hmin => ?boundary, fun c b th hth _ => ?monotone⟩
  case roundTrip =>
    have hdec := exec_dec_of_entry (s := writeResult (romRead s.oqpskChip s.cfgMod ⟨_, hsym⟩).chip false s) hv rfl htable
      ⟨_, hsym⟩ b'
    exact ⟨_, _, exec_enc_of_index hv rfl hsym rfl b, hdec, rfl, by simp⟩
  case boundary =>
    obtain ⟨t, ht, hhit, -⟩ := exec_dec_of_configured hv c b
    refine ⟨t, ht, hhit.trans ?_⟩
    simp only [nearest_dist_le_iff, entryDistance_eq_differingBits]
    exact ⟨fun ⟨i, hi⟩ => (hmin i).trans hi, fun hle => ⟨j, hj.trans_le hle⟩⟩
  case monotone =>
    obtain ⟨t, ht, hhit, hres⟩ := exec_dec_of_configured hv c b
    obtain ⟨u, hu, hhit', hres'⟩ := exec_dec_of_configured (s := { s with cfgThresh := th }) hv c b
    refine ⟨t, u, ht, hu, fun h => ?_⟩
    have huhit : u.hit = true := hhit'.mpr ((hhit.mp h).trans (BitVec.lt_def.mp hth).le)
    exact ⟨huhit, (hres' huhit).trans (hres h).symm⟩

/-- Settles O30: 0x6077ae6c and the fifteen words of the free table are the sixteen entries, and no distance exceeds 32. -/
theorem oqpskExactEntriesDecode : Obligations.OqpskExactEntriesDecode := by
  unfold Obligations.OqpskExactEntriesDecode
  intro s b hv hm htable
  refine ⟨?entryZero, fun k => ?entrySucc, fun hth c => ?everyWord⟩
  case entryZero =>
    have hdec := exec_dec_of_entry hv hm htable ⟨0, by decide⟩ b
    rwa [romRead_oqpsk_zero] at hdec
  case entrySucc =>
    have hk : k.val + 1 < nsym .oqpsk := Nat.succ_lt_succ k.isLt
    have hdec := exec_dec_of_entry hv hm htable ⟨k + 1, hk⟩ b
    rwa [romRead_oqpsk_succ] at hdec
  case everyWord =>
    obtain ⟨t, ht, hhit, -⟩ := exec_dec_of_configured hv c b
    refine ⟨t, ht, hhit.mpr ?_⟩
    rw [hth, (firstNearestOf_nearest ..).dist_eq]
    exact hammingDistance_le ..

end Sys2Proof.Machine

/-! ## BPSK

The two BPSK patterns are 0 above bit 14 and complements of each other below bit 15, so a chip word's distances split into a
part below and a common part above (41_chip_codec.md section 5, R80). -/

namespace Sys2Proof.Machine

/-- `lo` of R80 for a chip pattern: the bits 14:0 at which a chip word differs from it. -/
def lowDistance (c chip : Word) : ℕ := ((Finset.range 15).filter fun k => (c ^^^ chip).getLsbD k = true).card

/-- `hi` of R80: the ones of c[31:15]. -/
def highOnes (c : Word) : ℕ := ((Finset.range 17).filter fun k => c.getLsbD (15 + k) = true).card

theorem lowDistance_eq_sum (c chip : Word) :
    lowDistance c chip = ∑ k ∈ Finset.range 15, ((c ^^^ chip).getLsbD k).toNat :=
  card_filter_eq_sum 15 _

theorem highOnes_eq_sum (c : Word) : highOnes c = ∑ k ∈ Finset.range 17, (c.getLsbD (15 + k)).toNat :=
  card_filter_eq_sum 17 fun k => c.getLsbD (15 + k)

theorem hammingDistance_eq_low_add_high (c : Word) {chip : Word} (h : ∀ k < 17, chip.getLsbD (15 + k) = false) :
    hammingDistance c chip = lowDistance c chip + highOnes c := by
  have hhigh (k : ℕ) (hk : k ∈ Finset.range 17) :
      ((c ^^^ chip).getLsbD (15 + k)).toNat = (c.getLsbD (15 + k)).toNat := by
    rw [BitVec.getLsbD_xor, h k (Finset.mem_range.mp hk), Bool.xor_false]
  calc hammingDistance c chip
      = ∑ k ∈ Finset.range (15 + 17), ((c ^^^ chip).getLsbD k).toNat := popcount_eq_sum _
    _ = lowDistance c chip + ∑ k ∈ Finset.range 17, ((c ^^^ chip).getLsbD (15 + k)).toNat := by
        rw [Finset.sum_range_add, lowDistance_eq_sum]
    _ = lowDistance c chip + highOnes c := by rw [Finset.sum_congr rfl hhigh, highOnes_eq_sum]

/-- A chip word agrees at each low position with exactly one of two patterns that are complements there. -/
theorem lowDistance_add_lowDistance (c : Word) {chip chip' : Word}
    (h : ∀ k < 15, chip'.getLsbD k = !chip.getLsbD k) : lowDistance c chip + lowDistance c chip' = 15 := by
  have hbit (k : ℕ) (hk : k ∈ Finset.range 15) :
      ((c ^^^ chip).getLsbD k).toNat + ((c ^^^ chip').getLsbD k).toNat = 1 := by
    rw [BitVec.getLsbD_xor, BitVec.getLsbD_xor, h k (Finset.mem_range.mp hk)]
    cases c.getLsbD k <;> cases chip.getLsbD k <;> rfl
  rw [lowDistance_eq_sum, lowDistance_eq_sum, ← Finset.sum_add_distrib, Finset.sum_congr rfl hbit]
  rfl

theorem bpsk_distances (c : Word) :
    hammingDistance c 0x000009af = lowDistance c 0x000009af + highOnes c
      ∧ hammingDistance c 0x00007650 = 15 - lowDistance c 0x000009af + highOnes c
      ∧ lowDistance c 0x000009af ≤ 15 := by
  have hsum := lowDistance_add_lowDistance c (chip := 0x000009af) (chip' := 0x00007650) (by decide)
  have hzero := hammingDistance_eq_low_add_high c (chip := 0x000009af) (by decide)
  have hone := hammingDistance_eq_low_add_high c (chip := 0x00007650) (by decide)
  omega

theorem highOnes_eq_zero_iff (c : Word) : highOnes c = 0 ↔ c.toNat < 0x8000 := by
  have hbits : highOnes c = 0 ↔ ∀ k < 17, c.getLsbD (15 + k) = false := by
    simp [highOnes, Finset.filter_eq_empty_iff]
  rw [hbits]
  refine ⟨fun h => Nat.lt_pow_two_of_testBit (n := 15) _ fun j hj => ?_, fun h k _ => ?_⟩
  · obtain ⟨k, rfl⟩ := Nat.exists_eq_add_of_le hj
    by_cases hk : k < 17
    · exact h k hk
    · exact BitVec.getLsbD_of_ge c _ (by omega)
  · exact Nat.testBit_lt_two_pow (h.trans_le (Nat.pow_le_pow_right (n := 2) (i := 15) (by decide) (Nat.le_add_right 15 k)))

/-- The two turns of a BPSK scan: entry 1 wins only when it is strictly nearer. -/
theorem nearest_bpsk_cases (rom : Vector Word 15) (c : Word) :
    (hammingDistance c 0x000009af ≤ hammingDistance c 0x00007650
        ∧ nearest rom .bpsk c = ⟨⟨0, by decide⟩, hammingDistance c 0x000009af⟩)
      ∨ (hammingDistance c 0x00007650 < hammingDistance c 0x000009af
        ∧ nearest rom .bpsk c = ⟨⟨1, by decide⟩, hammingDistance c 0x00007650⟩) :=
  keepNearer_cases rom .bpsk c (firstEntry rom .bpsk c) ⟨1, by decide⟩

theorem nearest_bpsk (rom : Vector Word 15) (c : Word) :
    nearest rom .bpsk c = ⟨if lowDistance c 0x000009af ≤ 7 then ⟨0, by decide⟩ else ⟨1, by decide⟩,
      min (lowDistance c 0x000009af) (15 - lowDistance c 0x000009af) + highOnes c⟩ := by
  obtain ⟨hzero, hone, hlo⟩ := bpsk_distances c
  obtain ⟨hle, hscan⟩ | ⟨hlt, hscan⟩ := nearest_bpsk_cases rom c
  · rw [hscan, hzero, if_pos (by omega), min_eq_left (by omega)]
  · rw [hscan, hone, if_neg (by omega), min_eq_right (by omega)]

/-- Settles O29: the clauses about the distances are arithmetic on `bpsk_distances`, those about DEC follow from
`nearest_bpsk`. -/
theorem bpskDecodeNeverTies : Obligations.BpskDecodeNeverTies := by
  unfold Obligations.BpskDecodeNeverTies
  intro c b s lo hi hlo hhi
  obtain rfl : lo = lowDistance c 0x000009af := hlo
  obtain rfl : hi = highOnes c := hhi
  obtain ⟨hzero, hone, hle⟩ := bpsk_distances c
  refine ⟨⟨hzero, hone, hle⟩, by omega, by omega, by omega, by omega, by omega, highOnes_eq_zero_iff c, fun hv hm => ?_⟩
  obtain ⟨t, ht, hhit, hres⟩ := exec_dec_of_configured hv c b
  rw [hm, nearest_bpsk] at hhit hres
  dsimp only at hhit hres
  rw [nearest_bpsk]
  refine ⟨rfl, ?winner, t, ht, hhit, ?symbol, ?miss, ?allOnes, ?hit⟩
  case winner =>
    split
    · next h => exact iff_of_true rfl h
    · next h => exact iff_of_false (Fin.ne_of_val_ne Nat.one_ne_zero) h
  case symbol =>
    intro h
    rw [hres h]
    split <;> rfl
  case miss =>
    intro hth hhigh
    rw [← Bool.not_eq_true, hhit]
    omega
  case allOnes =>
    rintro rfl
    decide
  case hit =>
    intro hth hhigh
    rw [hhit]
    omega

end Sys2Proof.Machine

/-! ## Bit 31 under the candidate table

No candidate pattern uses bit 31, so inverting it moves a chip word by the same amount from every entry, and the order of the
entries stays (90_conflicts.md C5; 93_implementation_defined.md I3). -/

namespace Sys2Proof.Machine

/-- R75 names one entry. -/
theorem IsFirstNearest.eq {rom : Vector Word 15} {m : Modulation} {c : Word} {i j : Fin (nsym m)}
    (hi : IsFirstNearest rom m c i) (hj : IsFirstNearest rom m c j) : i = j := by
  obtain ⟨hij, hbefore⟩ := hi j
  obtain ⟨hji, hbefore'⟩ := hj i
  obtain hlt | heq | hgt := lt_trichotomy i j
  · exact absurd (hbefore' hlt) (not_lt.mpr hij)
  · exact heq
  · exact absurd (hbefore hgt) (not_lt.mpr hji)

/-- The winner depends on the order of the distances alone. -/
theorem nearest_idx_eq_of_shift {rom : Vector Word 15} {m : Modulation} {c c' : Word} {a a' : ℕ}
    (h : ∀ i, differingBits c (romRead rom m i).chip + a = differingBits c' (romRead rom m i).chip + a') :
    (nearest rom m c').idx = (nearest rom m c).idx := by
  have hfirst : IsFirstNearest rom m c (nearest rom m c').idx := by
    intro j
    obtain ⟨hle, hlt⟩ := nearest_isFirstNearest rom m c' j
    have hi := h (nearest rom m c').idx
    have hj := h j
    exact ⟨by omega, fun hbefore => by have := hlt hbefore; omega⟩
  exact hfirst.eq (nearest_isFirstNearest rom m c)

/-- The bits 30:0 at which a chip word differs from a pattern. -/
def distanceBelow31 (c chip : Word) : ℕ := ∑ k ∈ Finset.range 31, ((c ^^^ chip).getLsbD k).toNat

theorem hammingDistance_eq_below31_add (c : Word) {chip : Word} (h : chip.getLsbD 31 = false) :
    hammingDistance c chip = distanceBelow31 c chip + (c.getLsbD 31).toNat := by
  rw [hammingDistance, popcount_eq_sum, Finset.sum_range_succ, BitVec.getLsbD_xor, h, Bool.xor_false, distanceBelow31]

theorem distanceBelow31_invert31 (c chip : Word) : distanceBelow31 (c ^^^ 0x80000000) chip = distanceBelow31 c chip := by
  have hlow : ∀ k < 31, (0x80000000 : Word).getLsbD k = false := by decide
  refine Finset.sum_congr rfl fun k hk => ?_
  simp only [BitVec.getLsbD_xor, hlow k (Finset.mem_range.mp hk), Bool.xor_false]

/-- Settles O31: without bit 31 in any entry, the distances of the two words differ by their own bit 31 alone. -/
theorem candidateBit31NeverChangesTheWinner : Obligations.CandidateBit31NeverChangesTheWinner := by
  unfold Obligations.CandidateBit31NeverChangesTheWinner
  intro e11 c he11
  have hclear : ∀ i, (romRead (candidateChip e11) .oqpsk i).chip.getLsbD 31 = false := by
    obtain rfl | rfl := he11 <;> decide
  refine ⟨hclear, nearest_idx_eq_of_shift (a := ((c ^^^ 0x80000000).getLsbD 31).toNat) (a' := (c.getLsbD 31).toNat)
    fun i => ?_⟩
  rw [← hammingDistance_eq_differingBits, ← hammingDistance_eq_differingBits,
    hammingDistance_eq_below31_add _ (hclear i), hammingDistance_eq_below31_add _ (hclear i), distanceBelow31_invert31]
  omega

end Sys2Proof.Machine

/-! ## Commands that keep the configuration

HD, ENC and DEC change RESULT, HIT and the waiting inputs alone, and their outcome depends on none of the three
(20_memory.md section 5, R48). -/

namespace Sys2Proof.Machine

/-- `t` is `s` but for RESULT, HIT and the waiting inputs. -/
def SameConfiguration (s t : State) : Prop :=
  ∃ value hit rest, t = setPending rest (writeResult value hit s)

theorem SameConfiguration.refl (s : State) : SameConfiguration s s := ⟨s.result, s.hit, s.pending, rfl⟩

theorem SameConfiguration.trans {s t u : State} (hst : SameConfiguration s t) (htu : SameConfiguration t u) :
    SameConfiguration s u := by
  obtain ⟨_, _, _, rfl⟩ := hst
  obtain ⟨value, hit, rest, rfl⟩ := htu
  exact ⟨value, hit, rest, rfl⟩

theorem SameConfiguration.fault_eq {s t : State} (h : SameConfiguration s t) : t.fault = s.fault := by
  obtain ⟨_, _, _, rfl⟩ := h
  rfl

theorem SameConfiguration.cause_eq {s t : State} (h : SameConfiguration s t) : t.cause = s.cause := by
  obtain ⟨_, _, _, rfl⟩ := h
  rfl

/-- A transaction that is no CFG and leaves no fault recorded keeps the configuration. -/
theorem step_sameConfiguration {s t : State} {tx : Transaction} {rest : List HostInput}
    (hp : s.pending = .transact tx :: rest) (hcmd : tx.cmd ≠ 2) (ht : step s = .next t) (hf : t.fault = false) :
    SameConfiguration s t := by
  obtain ⟨hnone, -⟩ | ⟨_, hreset, -⟩ | ⟨_, _, -, hfault, hs⟩ | ⟨_, _, _, -, -, -, hs⟩ |
    ⟨tx', rest', i, hp', -, hdec, hs⟩ := step_cases s
  · simp [hp] at hnone
  · simp [hp] at hreset
  · obtain rfl := Host.Outcome.next.inj (hs.symm.trans ht)
    simp [hfault] at hf
  · obtain rfl := Host.Outcome.next.inj (hs.symm.trans ht)
    simp at hf
  · obtain ⟨⟨rfl⟩, rfl⟩ := List.cons.inj (hp.symm.trans hp')
    have hcfg (m th : Word) : i ≠ .cfg m th := by
      rintro rfl
      exact hcmd (congrArg Transaction.cmd (decode_eq_ok_iff.mp hdec)).symm
    obtain hframe | hframe := hdEncDecFrame i (setPending rest s) t hcfg (hs.symm.trans ht)
    · exact ⟨t.result, t.hit, rest, hframe⟩
    · have hfault : t.fault = true := congrArg State.fault hframe
      simp [hf] at hfault

theorem run_sameConfiguration {ts : List Transaction} {rest : List HostInput} {s u : State}
    (hp : s.pending = ts.map HostInput.transact ++ rest) (hcmd : ∀ x ∈ ts, x.cmd ≠ 2)
    (hu : Host.Core.run Sys2Proof.core ts.length s = .next u) (hf : u.fault = false) : SameConfiguration s u := by
  induction ts generalizing s with
  | nil =>
    obtain rfl := Host.Outcome.next.inj ((run_none s).symm.trans hu)
    exact .refl s
  | cons tx ts ih =>
    obtain ⟨t, ht⟩ := step_answers s
    have hrest : t.pending = ts.map HostInput.transact ++ rest := by rw [step_pending ht, hp]; rfl
    have hrun : Host.Core.run Sys2Proof.core ts.length t = .next u := (run_succ_of_next ht).symm.trans hu
    have hclear : t.fault = false := by
      by_contra hfault
      rw [Bool.not_eq_false] at hfault
      obtain rfl := Host.Outcome.next.inj ((run_of_faulted hfault ts hrest).symm.trans hrun)
      simp [hfault] at hf
    obtain ⟨hfirst, hothers⟩ := List.forall_mem_cons.mp hcmd
    exact (step_sameConfiguration hp hfirst ht hclear).trans (ih hrest hothers hrun)

/-- The configuration alone decides what an HD, ENC or DEC does: one fault, or one write of RESULT and HIT. -/
theorem exec_outcome_of_configuration {i : Instr} (hcfg : ∀ m th, i ≠ .cfg m th) (s : State) :
    (∃ c, ∀ t, SameConfiguration s t → exec i t = .next (raiseFault c t))
      ∨ ∃ value hit, ∀ t, SameConfiguration s t → exec i t = .next (writeResult value hit t) := by
  cases i with
  | hd x y => exact .inr ⟨_, _, fun t _ => exec_hd x y t⟩
  | cfg m th => exact absurd rfl (hcfg m th)
  | enc sym b =>
    cases hv : s.cfgValid with
    | false => exact .inl ⟨_, fun _ ⟨_, _, _, ht⟩ => exec_enc_of_unconfigured (ht ▸ hv) sym b⟩
    | true =>
      by_cases hsym : nsym s.cfgMod ≤ sym.toNat
      · exact .inl ⟨_, fun _ ⟨_, _, _, ht⟩ => exec_enc_of_symbolRange (ht ▸ hv) (ht ▸ rfl) hsym b⟩
      · refine .inr ⟨(romRead s.oqpskChip s.cfgMod ⟨sym.toNat, not_le.mp hsym⟩).chip, false, ?_⟩
        rintro _ ⟨value, hit, rest, rfl⟩
        exact exec_enc_of_index (s := setPending rest (writeResult value hit s)) hv rfl (not_le.mp hsym) rfl b
  | dec c b =>
    cases hv : s.cfgValid with
    | false => exact .inl ⟨_, fun _ ⟨_, _, _, ht⟩ => exec_dec_of_unconfigured (ht ▸ hv) c b⟩
    | true =>
      by_cases hnear : (nearest s.oqpskChip s.cfgMod c).dist ≤ s.cfgThresh.toNat
      · refine .inr ⟨(romRead s.oqpskChip s.cfgMod (nearest s.oqpskChip s.cfgMod c).idx).symbol, true, ?_⟩
        rintro _ ⟨value, hit, rest, rfl⟩
        exact exec_dec_of_hit (s := setPending rest (writeResult value hit s)) b hv hnear
      · refine .inr ⟨0, false, ?_⟩
        rintro _ ⟨value, hit, rest, rfl⟩
        exact exec_dec_of_miss (s := setPending rest (writeResult value hit s)) b hv (not_le.mp hnear)

/-- Settles O38: the run keeps the configuration, which decides the outcome before it and after it. -/
theorem resultsIgnoreInterveningCommands : Obligations.ResultsIgnoreInterveningCommands := by
  unfold Obligations.ResultsIgnoreInterveningCommands
  intro s u v w ts rest i _ hcmd hcfg hp hu hf hv hw
  have hsame := run_sameConfiguration hp hcmd hu hf
  obtain ⟨c, hrun⟩ | ⟨value, hit, hrun⟩ := exec_outcome_of_configuration hcfg s
  all_goals
    obtain rfl := Host.Outcome.next.inj ((hrun s (.refl s)).symm.trans hv)
    obtain rfl := Host.Outcome.next.inj ((hrun u hsame).symm.trans hw)
  · exact ⟨rfl, rfl, by simp⟩
  · exact ⟨hsame.fault_eq.symm, hsame.cause_eq.symm, fun _ => ⟨rfl, rfl⟩⟩

end Sys2Proof.Machine

/-! ## Straight after a reset

The first command that follows a reset (70_reset_and_hazards.md section 1, R109). -/

namespace Sys2Proof.Machine

/-- The reset leaves a block that is not faulted, so the next command runs, in the state the reset left. -/
theorem run_reset_encode {s : State} {i : Instr} {rest : List HostInput}
    (hp : s.pending = .reset :: .transact (encode i) :: rest) :
    Host.Core.run Sys2Proof.core 2 s = exec i (setPending rest (hostReset s)) := by
  rw [run_succ_of_next (step_of_reset hp), run_one]
  exact step_of_encode (s := hostReset (setPending (.transact (encode i) :: rest) s)) rfl rfl

/-- Settles O13: HD asks for no configuration, ENC and DEC find none. -/
theorem afterResetHdWorksAndEncDecFault : Obligations.AfterResetHdWorksAndEncDecFault := by
  unfold Obligations.AfterResetHdWorksAndEncDecFault
  refine fun s rest a b => ⟨fun hp => ?hd, fun cmd hcmd hp => ?encDec⟩
  case hd =>
    refine ⟨_, (run_reset_encode (i := .hd a b) hp).trans (exec_hd a b _), rfl, ?_⟩
    rw [writeResult_result, toNat_ofNat_hammingDistance, hammingDistance_eq_differingBits]
  case encDec =>
    refine ⟨raiseFault .notConfigured (setPending rest (hostReset s)), ?_, rfl, rfl⟩
    obtain rfl | rfl := hcmd
    · exact (run_reset_encode (i := .enc a b) hp).trans (exec_enc_of_unconfigured rfl a b)
    · exact (run_reset_encode (i := .dec a b) hp).trans (exec_dec_of_unconfigured rfl a b)

end Sys2Proof.Machine
